-- ==== Sys2Proof/Word.lean ====
section
/-! DEFINITION. The word types of the block and the shape of its 5 × 5 grids (00_scope.md R8, R10,
R14 to R16; 10_state.md R30). -/

namespace Sys2Proof

/-- One byte of a frame, a response or a message (R16). -/
abbrev Byte := BitVec 8

/-- A binary lane: one 64-bit unit of state (R8, R10). Bit 0 is its least significant bit. -/
abbrev Lane := BitVec 64

/-- A redundant lane as it travels in a frame: `RED_OPERAND_BITS = 256` (R8, R106). -/
abbrev RedOperand := BitVec 256

/-- A redundant lane inside the engine: a non-negative integer of unbounded precision (R15). -/
abbrev RedLane := Nat

/-- A micro-op word: `uop` in bits 4:0, `rnd` in bits 9:5 (R110). -/
abbrev UopWord := BitVec 10

/-- The five cells of one row of a grid, `x = 0..4`; also the five column sums of theta. -/
structure Row (α : Type) where
  x0 : α
  x1 : α
  x2 : α
  x3 : α
  x4 : α
deriving DecidableEq, Repr

/-- The 5 × 5 grid, row by row, `y = 0..4` (R14, R30). -/
structure Grid (α : Type) where
  y0 : Row α
  y1 : Row α
  y2 : Row α
  y3 : Row α
  y4 : Row α
deriving DecidableEq, Repr

end Sys2Proof
end

