-- ==== Sys2Proof/Machine/Grid.lean ====
section
/-! DEFINITION. Reading and building grids. Coordinates are `Fin 5`, so their arithmetic is modulo 5
with the least non-negative residue (00_scope.md R13), and a coordinate outside `[0,5)` cannot be
written down (60_exceptions.md R315). Lanes are ordered by the lane index `i = x + 5y` (20_memory.md R72). -/

namespace Sys2Proof

/-- Cell `x` of a row. -/
def Row.get {α : Type} (r : Row α) (x : Fin 5) : α :=
  match x.val with
  | 0 => r.x0
  | 1 => r.x1
  | 2 => r.x2
  | 3 => r.x3
  | _ => r.x4

/-- The row whose cell `x` is `f x`. -/
def Row.ofFn {α : Type} (f : Fin 5 → α) : Row α := ⟨f 0, f 1, f 2, f 3, f 4⟩

/-- Row `y` of a grid. -/
def Grid.row {α : Type} (g : Grid α) (y : Fin 5) : Row α :=
  match y.val with
  | 0 => g.y0
  | 1 => g.y1
  | 2 => g.y2
  | 3 => g.y3
  | _ => g.y4

/-- `g[x,y]`: the lane at column `x`, row `y` (R14). -/
def Grid.get {α : Type} (g : Grid α) (x y : Fin 5) : α := (g.row y).get x

/-- The grid whose lane `(x,y)` is `f x y`. -/
def Grid.ofFn {α : Type} (f : Fin 5 → Fin 5 → α) : Grid α :=
  ⟨Row.ofFn (f · 0), Row.ofFn (f · 1), Row.ofFn (f · 2), Row.ofFn (f · 3), Row.ofFn (f · 4)⟩

/-- The lane index `i = x + 5y` of the lane at `(x, y)` (R72). -/
def laneIndex (x y : Fin 5) : Nat := x.val + 5 * y.val

/-- The grid whose lane of lane index `i` is `f i` (R72). -/
def Grid.ofIndex {α : Type} (f : Nat → α) : Grid α := Grid.ofFn fun x y => f (laneIndex x y)

/-- The grid with `v` in every lane. -/
def Grid.fill {α : Type} (v : α) : Grid α := Grid.ofFn fun _ _ => v

/-- `f` applied to every lane. -/
def Grid.map {α β : Type} (f : α → β) (g : Grid α) : Grid β := Grid.ofFn fun x y => f (g.get x y)

/-- The cells of a row in order. -/
def Row.toList {α : Type} (r : Row α) : List α := [r.x0, r.x1, r.x2, r.x3, r.x4]

/-- The 25 lanes in lane-index order: `y = 0..4` outer, `x = 0..4` inner (R72). -/
def Grid.lanes {α : Type} (g : Grid α) : List α :=
  g.y0.toList ++ g.y1.toList ++ g.y2.toList ++ g.y3.toList ++ g.y4.toList

/-- Whether `p` holds of every lane. -/
def Grid.all {α : Type} (p : α → Bool) (g : Grid α) : Bool := g.lanes.all p

end Sys2Proof
end

