-- ==== Sys2Proof/Machine/Operands.lean ====
section
/-! DEFINITION. Operand assembly: the little-endian fields of frames and responses (00_scope.md R16;
20_memory.md R74, R75, R77) and the operand forms of 30_encoding.md R105 to R107. -/

namespace Sys2Proof

/-- `Σ_j b_j · 2^(8j)`: the unsigned little-endian integer of a byte string (R16). -/
def leNat : List Byte → Nat
  | [] => 0
  | b :: bs => b.toNat + 256 * leNat bs

/-- The `n` little-endian bytes of an integer: byte `j` is bits `8j+7 : 8j` (R16). -/
def leBytes : Nat → Nat → List Byte
  | 0, _ => []
  | n + 1, v => BitVec.ofNat 8 v :: leBytes n (v / 256)

/-- `LE64` (R16): a word, or the INGEST length, from 8 bytes (R107). -/
def le64 (bs : List Byte) : Lane := BitVec.ofNat 64 (leNat bs)

/-- `LEbytes64` (R16, R75): lane bits 7:0 come first. -/
def leBytes64 (v : Lane) : List Byte := leBytes 8 v.toNat

/-- `LE256` (R16, R106): a redundant lane from 32 bytes. -/
def le256 (bs : List Byte) : RedOperand := BitVec.ofNat 256 (leNat bs)

/-- `LEbytes256` (R16). -/
def leBytes256 (n : Nat) : List Byte := leBytes 32 n

/-- A digit operand is the raw byte value (R107). -/
def digitOperand (bs : List Byte) : Byte := bs.headD 0

/-- Bytes `off .. off+n-1` of a buffer. -/
def field (off n : Nat) (bs : List Byte) : List Byte := (bs.drop off).take n

/-- Lane `i` of a PERMUTE_BIN operand is `LE64(MemRead(8i, 8))` (R105). -/
def gridOfBytes64 (bs : List Byte) : Grid Lane := Grid.ofIndex fun i => le64 (field (8 * i) 8 bs)

/-- Lane `i` of a PERMUTE_RED operand is `LE256(MemRead(32i, 32))` (R105). -/
def gridOfBytes256 (bs : List Byte) : Grid RedOperand :=
  Grid.ofIndex fun i => le256 (field (32 * i) 32 bs)

/-- The 200 bytes of 25 binary lanes in lane-index order (R105). -/
def bytesOfGrid64 (g : Grid Lane) : List Byte := g.lanes.flatMap leBytes64

/-- The 800 bytes of 25 redundant lanes in lane-index order (R105). -/
def bytesOfGrid256 (g : Grid Nat) : List Byte := g.lanes.flatMap leBytes256

/-- A redundant operand lane is zero-extended into ℕ (R106). -/
def redLanes (g : Grid RedOperand) : Grid RedLane := g.map BitVec.toNat

end Sys2Proof
end

