-- ==== Sys2Proof/Config.lean ====
section
/-! DEFINITION. What one build of the block fixes (00_scope.md R8, R9; 10_state.md R33; 44_sponge.md
R250) and the two parameters the spec leaves OPEN (92_eei_decisions.md D16, D28), which are constants
without a body: nothing can be proved of their values. -/

namespace Sys2Proof.Config

/-- `RATE_BYTES` (R8, R33): 136 bytes, 17 lanes. -/
def rateBytes : Nat := 136

/-- `CAPACITY_BYTES` (R8, R33). -/
def capacityBytes : Nat := 64

/-- `DIGEST_BYTES = CAPACITY_BYTES / 2` (R8, R250). -/
def digestBytes : Nat := capacityBytes / 2

/-- `NROUNDS` (R8): the rounds of one permutation, binary or redundant. -/
def numRounds : Nat := 24

/-- `LANE_BITS` (R8): the bits of a binary lane, and the digits of a redundant one. -/
def laneBits : Nat := 64

/-- The sponge configurations a generic model may admit (R250, D15). The block itself is fixed at
136/64; everything else is refused, not modelled. -/
def admitted (rate cap : Nat) : Bool :=
  rate % 8 == 0 && decide (0 < rate) && decide (rate < 200) && cap + rate == 200 && cap / 2 % 8 == 0

/-- `MaxMessageBytes` (R8, R282, D16): OPEN, any value up to `2^64 − 1`; its type is that bound. -/
opaque maxMessageBytes : BitVec 64

/-- What `commandLatency` adds to one cycle. -/
opaque latencyBeyondOne : Byte → List Byte → Nat

/-- `CommandLatency` (R369, D28): OPEN, any function from a command and its operands to a positive
number of cycles. No rule depends on it and the step is untimed. -/
def commandLatency (op : Byte) (operand : List Byte) : Nat :=
  latencyBeyondOne op operand + 1

end Sys2Proof.Config
end

