-- ==== Sys2Proof/Syntax.lean ====
section
/-! DEFINITION. The instructions: the eleven host commands (30_encoding.md R102, R103) and the sixteen
internal micro-operations (R111), one constructor per row of spec/opcode_table.json. -/

namespace Sys2Proof

/-- A host command with its assembled operands, or a micro-operation with its round index. -/
inductive Instr where
  /-- NEW (R281). -/
  | new
  /-- INGEST (R282): the length field `L` and the message bytes that the frame delivered. -/
  | ingest (len : BitVec 64) (msg : List Byte)
  /-- FINALIZE (R283). -/
  | finalize
  /-- PERMUTE_BIN (R151): the operand grid. -/
  | permuteBin (grid : Grid Lane)
  /-- PERMUTE_RED (R222): the operand grid of 256-bit redundant lanes. -/
  | permuteRed (grid : Grid RedOperand)
  /-- ENC13 (R183). -/
  | enc13 (w : Lane)
  /-- ENC9 (R184). -/
  | enc9 (w : Lane)
  /-- DEC13D (R185). -/
  | dec13d (d : Byte)
  /-- DEC9D (R186). -/
  | dec9d (d : Byte)
  /-- DEC13L (R187). -/
  | dec13l (n : RedOperand)
  /-- DEC9L (R188). -/
  | dec9l (n : RedOperand)
  /-- THETA (R140). -/
  | theta
  /-- RHO (R141). -/
  | rho
  /-- PI (R142). -/
  | pi
  /-- CHI (R143). -/
  | chi
  /-- IOTA (R144): the word's `rnd` field. -/
  | iota (rnd : BitVec 5)
  /-- ROUND (R145). -/
  | round (rnd : BitVec 5)
  /-- THETA13 (R211). -/
  | theta13
  /-- RHO13TO9 (R214). -/
  | rho13to9
  /-- PI9 (R215). -/
  | pi9
  /-- CHI9 (R216). -/
  | chi9
  /-- IOTA9 (R217). -/
  | iota9 (rnd : BitVec 5)
  /-- CONV9TO13 (R219). -/
  | conv9to13
  /-- ROUND_RED (R220). -/
  | roundRed (rnd : BitVec 5)
  /-- PAD (R252). -/
  | pad
  /-- ABSORB (R254). -/
  | absorb
  /-- SQUEEZE (R256). -/
  | squeeze
deriving DecidableEq, Repr

end Sys2Proof
end

