-- ==== Sys2Proof/WellFormed.lean ====
section
/-! DEFINITION. Which instruction terms stand for a command frame or a micro-op word of the spec. -/

namespace Sys2Proof

/-- A round index of a micro-op word: `rnd ≤ 23` (30_encoding.md R110, R112). -/
def roundIndexOk (rnd : BitVec 5) : Bool := decide (rnd.toNat < Config.numRounds)

/-- What an INGEST frame delivers under a length limit (R108, R282): a length over the limit ends the
frame before any message byte; otherwise the frame carries exactly `L` message bytes. -/
def ingestOk (limit len : BitVec 64) (msg : List Byte) : Bool :=
  if limit < len then decide (msg = []) else decide (msg.length = len.toNat)

/-- The well-formed instructions. Every operand of the other commands is legal as an encoding (R103). -/
def Instr.wf : Instr → Bool
  | .ingest len msg => ingestOk Config.maxMessageBytes len msg
  | .iota rnd => roundIndexOk rnd
  | .round rnd => roundIndexOk rnd
  | .iota9 rnd => roundIndexOk rnd
  | .roundRed rnd => roundIndexOk rnd
  | .new => true
  | .finalize => true
  | .permuteBin _ => true
  | .permuteRed _ => true
  | .enc13 _ => true
  | .enc9 _ => true
  | .dec13d _ => true
  | .dec9d _ => true
  | .dec13l _ => true
  | .dec9l _ => true
  | .theta => true
  | .rho => true
  | .pi => true
  | .chi => true
  | .theta13 => true
  | .rho13to9 => true
  | .pi9 => true
  | .chi9 => true
  | .conv9to13 => true
  | .pad => true
  | .absorb => true
  | .squeeze => true

end Sys2Proof
end

