-- ==== Sys2Proof/Decode.lean ====
section
/-! DEFINITION. The two decoders and the encoder (30_encoding.md R100 to R112). A command frame is
decoded from the bytes that have arrived; a micro-op word from its ten bits. Both are total. -/

namespace Sys2Proof

/-- What the frame decoder makes of the bytes that have arrived. -/
inductive FrameResult where
  /-- The frame is not complete: the block waits (R108). -/
  | wait
  /-- Byte 0 is unassigned; the frame is that byte alone (R109). -/
  | illegal (op : Byte)
  /-- A whole frame: the command, its operand buffer and the bytes after the frame. -/
  | command (i : Instr) (operand rest : List Byte)
deriving DecidableEq, Repr

/-- A command whose operand buffer has the fixed length `n` (R103, R108). -/
def takeFixed (n : Nat) (bs : List Byte) (assemble : List Byte → Instr) : FrameResult :=
  if bs.length < n then .wait else .command (assemble (bs.take n)) (bs.take n) (bs.drop n)

/-- INGEST (R108, R282): the length field first; over the limit the frame ends there (R313),
otherwise the message follows. -/
def takeIngest (limit : BitVec 64) (bs : List Byte) : FrameResult :=
  if bs.length < 8 then .wait
  else
    let len := le64 (bs.take 8)
    if limit < len then .command (.ingest len []) (bs.take 8) (bs.drop 8)
    else if bs.length < 8 + len.toNat then .wait
    else .command (.ingest len (field 8 len.toNat bs)) (bs.take (8 + len.toNat)) (bs.drop (8 + len.toNat))

/-- The frame decoder of a build with the given `MaxMessageBytes` (R103, R104, R109). -/
def decodeFrameWith (limit : BitVec 64) : List Byte → FrameResult
  | [] => .wait
  | op :: bs =>
    match op.toNat with
    | 0x01 => takeFixed 0 bs fun _ => .new
    | 0x02 => takeIngest limit bs
    | 0x03 => takeFixed 0 bs fun _ => .finalize
    | 0x04 => takeFixed 200 bs fun o => .permuteBin (gridOfBytes64 o)
    | 0x05 => takeFixed 800 bs fun o => .permuteRed (gridOfBytes256 o)
    | 0x06 => takeFixed 8 bs fun o => .enc13 (le64 o)
    | 0x07 => takeFixed 8 bs fun o => .enc9 (le64 o)
    | 0x08 => takeFixed 1 bs fun o => .dec13d (digitOperand o)
    | 0x09 => takeFixed 1 bs fun o => .dec9d (digitOperand o)
    | 0x0A => takeFixed 32 bs fun o => .dec13l (le256 o)
    | 0x0B => takeFixed 32 bs fun o => .dec9l (le256 o)
    | _ => .illegal op

/-- The frame decoder of the block. -/
def decodeFrame (bs : List Byte) : FrameResult := decodeFrameWith Config.maxMessageBytes bs

/-- Why a micro-op word is reserved (R112). -/
inductive UopReject where
  /-- The `uop` field is not in the map of R111. -/
  | unlistedUop
  /-- The `rnd` field is 24 or more. -/
  | roundOutOfRange
  /-- The `rnd` field is nonzero on a micro-op that does not use it. -/
  | roundNotUsed
deriving DecidableEq, Repr

/-- `uop = word[4:0]` (R110). -/
def uopField (w : UopWord) : BitVec 5 := w.extractLsb' 0 5

/-- `rnd = word[9:5]` (R110). -/
def rndField (w : UopWord) : BitVec 5 := w.extractLsb' 5 5

/-- A micro-op that does not use `rnd`: the field must be 0 (R110). -/
def plainUop (w : UopWord) (i : Instr) : Except UopReject Instr :=
  if Config.numRounds ≤ (rndField w).toNat then .error .roundOutOfRange
  else if rndField w = 0 then .ok i else .error .roundNotUsed

/-- A micro-op that uses `rnd`: legal values are `0..23` (R110). -/
def roundUop (w : UopWord) (i : BitVec 5 → Instr) : Except UopReject Instr :=
  if Config.numRounds ≤ (rndField w).toNat then .error .roundOutOfRange else .ok (i (rndField w))

/-- The micro-op map (R111). -/
def decodeUop (w : UopWord) : Except UopReject Instr :=
  match (uopField w).toNat with
  | 0x00 => plainUop w .theta
  | 0x01 => plainUop w .rho
  | 0x02 => plainUop w .pi
  | 0x03 => plainUop w .chi
  | 0x04 => roundUop w .iota
  | 0x05 => roundUop w .round
  | 0x08 => plainUop w .theta13
  | 0x09 => plainUop w .rho13to9
  | 0x0A => plainUop w .pi9
  | 0x0B => plainUop w .chi9
  | 0x0C => roundUop w .iota9
  | 0x0D => plainUop w .conv9to13
  | 0x0E => roundUop w .roundRed
  | 0x10 => plainUop w .pad
  | 0x11 => plainUop w .absorb
  | 0x12 => plainUop w .squeeze
  | _ => .error .unlistedUop

/-- The two encoding levels (R100): a command frame, or a micro-op word. -/
inductive Encoding where
  | frame (bytes : List Byte)
  | uop (word : UopWord)
deriving DecidableEq, Repr

/-- Why an encoding stands for no instruction. -/
inductive DecodeReject where
  /-- The frame ends before its last byte (R108). -/
  | incompleteFrame
  /-- Byte 0 is unassigned (R109). -/
  | illegalOpcode (op : Byte)
  /-- Bytes stand after the frame. -/
  | trailingBytes
  /-- A reserved micro-op word (R112). -/
  | reservedWord (why : UopReject)
deriving DecidableEq, Repr

/-- One encoding, exactly: a frame with nothing after it, or a micro-op word. -/
def decode : Encoding → Except DecodeReject Instr
  | .frame bs =>
    match decodeFrame bs with
    | .wait => .error .incompleteFrame
    | .illegal op => .error (.illegalOpcode op)
    | .command i _ [] => .ok i
    | .command _ _ (_ :: _) => .error .trailingBytes
  | .uop w =>
    match decodeUop w with
    | .ok i => .ok i
    | .error why => .error (.reservedWord why)

/-- The micro-op word with the given fields (R110). -/
def uopWord (uop rnd : BitVec 5) : UopWord := rnd ++ uop

/-- The encoder: the frame of a command (R103) or the word of a micro-op (R111). -/
def encode : Instr → Encoding
  | .new => .frame [0x01]
  | .ingest len msg => .frame (0x02 :: leBytes64 len ++ msg)
  | .finalize => .frame [0x03]
  | .permuteBin g => .frame (0x04 :: bytesOfGrid64 g)
  | .permuteRed g => .frame (0x05 :: bytesOfGrid256 (redLanes g))
  | .enc13 w => .frame (0x06 :: leBytes64 w)
  | .enc9 w => .frame (0x07 :: leBytes64 w)
  | .dec13d d => .frame [0x08, d]
  | .dec9d d => .frame [0x09, d]
  | .dec13l n => .frame (0x0A :: leBytes256 n.toNat)
  | .dec9l n => .frame (0x0B :: leBytes256 n.toNat)
  | .theta => .uop (uopWord 0x00 0)
  | .rho => .uop (uopWord 0x01 0)
  | .pi => .uop (uopWord 0x02 0)
  | .chi => .uop (uopWord 0x03 0)
  | .iota rnd => .uop (uopWord 0x04 rnd)
  | .round rnd => .uop (uopWord 0x05 rnd)
  | .theta13 => .uop (uopWord 0x08 0)
  | .rho13to9 => .uop (uopWord 0x09 0)
  | .pi9 => .uop (uopWord 0x0A 0)
  | .chi9 => .uop (uopWord 0x0B 0)
  | .iota9 rnd => .uop (uopWord 0x0C rnd)
  | .conv9to13 => .uop (uopWord 0x0D 0)
  | .roundRed rnd => .uop (uopWord 0x0E rnd)
  | .pad => .uop (uopWord 0x10 0)
  | .absorb => .uop (uopWord 0x11 0)
  | .squeeze => .uop (uopWord 0x12 0)

/-- The operand bytes of a frame whose operand fields are all zero (R103): for INGEST the length
field alone. -/
def zeroOperandLength (op : Byte) : Nat :=
  match op.toNat with
  | 0x02 => 8
  | 0x04 => 200
  | 0x05 => 800
  | 0x06 => 8
  | 0x07 => 8
  | 0x08 => 1
  | 0x09 => 1
  | 0x0A => 32
  | 0x0B => 32
  | _ => 0

/-- Whether byte 0 of a frame is an assigned opcode (R103, R109). -/
def assignedOpcode (op : Byte) : Bool := decide (0x01 ≤ op.toNat) && decide (op.toNat ≤ 0x0B)

/-- The encoding that a word of spec/opcode_table.json's numbering stands for, every bit above
`nbits` zero (log entry 13): up to 8 bits an opcode byte, with zero operand bytes after it; beyond,
or where the byte is no opcode, a micro-op word. -/
def tableEncoding (nbits w : Nat) : Option Encoding :=
  if nbits ≤ 8 ∧ w < 256 ∧ assignedOpcode (BitVec.ofNat 8 w) then
    some (.frame (BitVec.ofNat 8 w :: List.replicate (zeroOperandLength (BitVec.ofNat 8 w)) 0))
  else if w < 1024 then some (.uop (BitVec.ofNat 10 w))
  else none

/-- The instruction that the decoder reads from a table word. -/
def decodeTableWord (nbits w : Nat) : Option Instr :=
  match tableEncoding nbits w with
  | none => none
  | some e => (decode e).toOption

end Sys2Proof
end

