-- ==== Sys2Proof/Machine/State.lean ====
section
/-! DEFINITION. The state of the block, as plain data, and its value right after power-on reset
(10_state.md; 20_memory.md R70; 70_reset_and_hazards.md R350). -/

namespace Sys2Proof.Machine

/-- The bytes of one buffer by address: addresses strictly rising. An address that is not listed does
not exist (20_memory.md R70), so no listed byte can equal what an unlisted address reads as. -/
abbrev Memory := List Host.Cell

/-- The canonical form of a buffer. -/
abbrev Memory.wf (m : Memory) : Prop := m.Pairwise fun c d => c.1 < d.1

/-- The five theta column sums `c[0..4]`, base 2 or base 13 (10_state.md R35(3)). -/
inductive ColumnSums where
  | binary (c : Row Lane)
  | base13 (c : Row RedLane)
deriving DecidableEq, Repr

/-- The pi destination copy `B[x,y]` of either engine (10_state.md R35(4), R363). -/
inductive PiCopy where
  | binary (b : Grid Lane)
  | redundant (b : Grid RedLane)
deriving DecidableEq, Repr

/-- The transient state of 10_state.md R35: the datapath that the micro-operations work on. The host
cannot observe it, and every command defines what it uses before it uses it (log entry 2). -/
structure Work where
  /-- The binary working grid. -/
  A : Grid Lane
  /-- The redundant working grid. -/
  Q : Grid RedLane
  /-- The theta column sums. -/
  c : ColumnSums
  /-- The pi destination copy. -/
  B : PiCopy
  /-- The round counter (R37): a permutation counts with it; a single micro-op word leaves it alone (log
  entry 25). -/
  rnd : BitVec 5
  /-- The padded-message buffer of INGEST. -/
  P : List Byte
  /-- The block counter of INGEST. -/
  k : Nat
deriving DecidableEq, Repr

/-- What the host does to the block, one event at a time (log entry 3). -/
inductive HostEvent where
  /-- The host sends one byte of its command stream (30_encoding.md R101). -/
  | byte (b : Byte)
  /-- The host asserts the power-on reset input (R350). -/
  | assertReset
  /-- The host releases the power-on reset input (R353). -/
  | releaseReset
  /-- The host does nothing until the block waits for it. -/
  | pause
deriving DecidableEq, Repr

structure State where
  /-- The state register, 25 lanes of 64 bits (R30). -/
  S : Grid Lane
  /-- The status register: FAULT bit 0, CAUSE bits 7:4, INFO bits 15:8, bits 3:1 reserved (R32). -/
  status : BitVec 16
  /-- The transient state (R35). -/
  work : Work
  /-- The operand buffer of the current command (R70). -/
  operand : Memory
  /-- The response buffer of the current command (R70). -/
  response : Memory
  /-- The micro-op words that the sequencer has still to issue; none between commands (R110). -/
  sequencer : List UopWord
  /-- The frame decoder: the bytes that have arrived and are not taken yet (R108). -/
  rx : List Byte
  /-- The response frames delivered so far, oldest first (R101). -/
  tx : List (List Byte)
  /-- What the host will do next, soonest first (log entry 3). -/
  inbox : List HostEvent
  /-- Whether the power-on reset input is asserted (R350, R353). -/
  inReset : Bool
deriving DecidableEq, Repr

/-- The transient state after reset: unspecified and never observable (R350); zero by choice (log
entry 2). -/
def Work.reset : Work where
  A := Grid.fill 0
  Q := Grid.fill 0
  c := .binary (Row.ofFn fun _ => 0)
  B := .binary (Grid.fill 0)
  rnd := 0
  P := []
  k := 0

/-- The block right after power-on reset (R350): `S = 0`, `STATUS = 0`, no command in progress, the
frame decoder waiting for byte 0 of a new frame. -/
def State.reset : State where
  S := Grid.fill 0
  status := 0
  work := Work.reset
  operand := []
  response := []
  sequencer := []
  rx := []
  tx := []
  inbox := []
  inReset := false

/-- What makes the block stop with no next state: nothing. The faults of 60_exceptions.md are next
states, in which STATUS is latched and the block discards what it is sent (R311, R312), so this type
has no constructor: no step ends in a fault. Safe: no behaviour of the spec is cut off. -/
inductive Fault where
deriving DecidableEq, Repr

/-- Why the model gives an instruction no meaning. -/
inductive Refusal where
  /-- Raised by an arm of `exec` whose instruction has no meaning yet; no arm raises it. Safe. -/
  | notModelled (mnemonic : String)
deriving DecidableEq, Repr

/-- How every step of this machine ends. -/
abbrev Result := Host.Outcome State Fault Refusal

end Sys2Proof.Machine
end

