-- ==== Sys2Proof/Machine/Flags.lean ====
section
/-! DEFINITION. The STATUS register: its fields (10_state.md R32), the cause codes (60_exceptions.md
R310) and the value that fault entry gives it (R312, R314). The block has no other flag (R34). -/

namespace Sys2Proof.Machine

/-- The fault causes (R310). Cause 0 is NONE and 9..15 are never written. -/
inductive Cause where
  /-- Byte 0 of a frame is unassigned (R109). -/
  | illegalCommand
  /-- A grid coordinate outside `[0,5)`: cannot be raised (R315). -/
  | indexRange
  /-- ABSORB of a message that is not whole blocks (R254). -/
  | absorbLength
  /-- DEC13D or DEC9D of a value that is no digit (R185, R186). -/
  | digitRange
  /-- PERMUTE_RED of a lane that is not canonical in base 13 (R222). -/
  | redInput
  /-- DEC13L or DEC9L of a value with more than 64 digits (R187, R188). -/
  | laneRange
  /-- A reserved micro-op word (R112) or a violated internal precondition (R214, R219). -/
  | internalAssert
  /-- INGEST over `MaxMessageBytes` (R282). -/
  | msgTooLong
deriving DecidableEq, Repr

/-- `CAUSE` codes (R310). -/
def Cause.code : Cause → BitVec 4
  | .illegalCommand => 1
  | .indexRange => 2
  | .absorbLength => 3
  | .digitRange => 4
  | .redInput => 5
  | .laneRange => 6
  | .internalAssert => 7
  | .msgTooLong => 8

/-- `raise Fault(cause, info)` (00_scope.md R17): the pair that fault entry records. -/
structure Raise where
  cause : Cause
  info : Byte
deriving DecidableEq, Repr

/-- `STATUS.FAULT`, bit 0 (R32). -/
def faultBit (st : BitVec 16) : Bool := st.getLsbD 0

/-- `STATUS` bits 3:1, reserved (R32). -/
def reservedField (st : BitVec 16) : BitVec 3 := st.extractLsb' 1 3

/-- `STATUS.CAUSE`, bits 7:4 (R32). -/
def causeField (st : BitVec 16) : BitVec 4 := st.extractLsb' 4 4

/-- `STATUS.INFO`, bits 15:8 (R32). -/
def infoField (st : BitVec 16) : Byte := st.extractLsb' 8 8

/-- STATUS after fault entry: FAULT is 1, CAUSE and INFO are recorded, the reserved bits are not
written (R32, R312). -/
def latchFault (r : Raise) (st : BitVec 16) : BitVec 16 :=
  r.info ++ r.cause.code ++ reservedField st ++ 1#1

/-- The halted state of R311. -/
def State.halted (s : State) : Bool := faultBit s.status

end Sys2Proof.Machine
end

