-- ==== Sys2Proof/Machine/Ops.lean ====
section
/-! DEFINITION. The operations that meanings share: the buffers (20_memory.md R70; 00_scope.md R17),
fault entry (60_exceptions.md R312), the end of a command (30_encoding.md R101) and power-on reset
(70_reset_and_hazards.md R350). There is no return from a fault (R316). -/

namespace Sys2Proof.Machine

/-- Consecutive bytes from an address up. -/
def cellsFrom (addr : Nat) : List Byte → Memory
  | [] => []
  | b :: bs => (addr, b) :: cellsFrom (addr + 1) bs

/-- A buffer that holds a byte string from address 0 (R70). -/
def Memory.ofBytes (bs : List Byte) : Memory := cellsFrom 0 bs

/-- The bytes of a buffer in address order. -/
def Memory.bytes (m : Memory) : List Byte := m.map (·.2)

/-- One byte of a buffer; `none` at an address that does not exist. -/
def Memory.read (m : Memory) (addr : Nat) : Option Byte := (m.find? fun c => c.1 == addr).map (·.2)

/-- `MemRead` of every byte from an address on (R17). -/
def Memory.readFrom (m : Memory) (addr : Nat) : List Byte :=
  ((m.filter fun c => decide (addr ≤ c.1))).map (·.2)

/-- `MemWrite(addr, n, v)` of the byte string `v` of length `n` (R17). -/
def Memory.write (m : Memory) (addr : Nat) (bs : List Byte) : Memory :=
  m.filter (fun c => decide (c.1 < addr)) ++ cellsFrom addr bs ++
    m.filter (fun c => decide (addr + bs.length ≤ c.1))

/-- `MemWrite` to the response buffer. -/
def State.memWrite (s : State) (addr : Nat) (bs : List Byte) : State :=
  { s with response := s.response.write addr bs }

/-- A new response: the buffer is empty. -/
def State.beginResponse (s : State) : State := { s with response := [] }

/-- A completed command delivers its response buffer as one frame (R101, R319). -/
def State.deliver (s : State) : State := { s with tx := s.tx ++ [s.response.bytes] }

/-- A completed command responds with exactly these bytes (R101, R103). -/
def State.respond (s : State) (bs : List Byte) : State := (s.beginResponse.memWrite 0 bs).deliver

/-- Fault entry (R312): STATUS is latched and the command ends with no response; its operands, the
words the sequencer had still to issue and every byte that has arrived are discarded (R311). `S` is
not touched, and no state is saved anywhere else. -/
def State.raise (s : State) (r : Raise) : State :=
  { s with status := latchFault r s.status, operand := [], response := [], sequencer := [], rx := [] }

/-- The end of an instruction: its updates as a whole, or fault entry from the state before it (R80,
R312, R315). -/
def State.conclude (s : State) : Except Raise State → Result
  | .ok t => .next t
  | .error r => .next (s.raise r)

/-- `assert P else Fault(cause, info)` (00_scope.md R18). -/
def require (p : Bool) (cause : Cause) (info : Byte) : Except Raise Unit :=
  if p then .ok () else .error ⟨cause, info⟩

/-- Power-on reset (R350): the state of `State.reset`, with the reset input asserted. What the host
has received and what it will do next are the host's, and stay (log entry 6). -/
def State.powerOnReset (s : State) : State :=
  { State.reset with tx := s.tx, inbox := s.inbox, inReset := true }

/-- One event of the host (R101, R350, R353). A byte is discarded while the block is halted (R311) or
in reset (R353), and joins the frame decoder's bytes otherwise. With no event the block waits (R108). -/
def State.hostEvent (s : State) : State :=
  match s.inbox with
  | [] => s
  | .byte b :: es =>
    if s.halted || s.inReset then { s with inbox := es } else { s with inbox := es, rx := s.rx ++ [b] }
  | .assertReset :: es => ({ s with inbox := es }).powerOnReset
  | .releaseReset :: es => { s with inbox := es, inReset := false }
  | .pause :: es => { s with inbox := es }

/-- The frame leaves the frame decoder and its operand buffer becomes the current command's (R101). -/
def State.takeFrame (s : State) (operand rest : List Byte) : State :=
  { s with operand := Memory.ofBytes operand, rx := rest }

end Sys2Proof.Machine
end

