-- ==== Sys2Proof/Machine/Rom.lean ====
section
/-! DEFINITION. The constant ROMs (10_state.md R40 to R45) and the two generating procedures of R42,
which the spec gives as cross-checks. -/

namespace Sys2Proof.Machine

/-- ROM `RC[0..23]` (R40): one round constant a round. -/
def RC : List Lane :=
  [0x0000000000000001, 0x0000000000008082, 0x800000000000808A, 0x8000000080008000,
   0x000000000000808B, 0x0000000080000001, 0x8000000080008081, 0x8000000000008009] ++
  [0x000000000000008A, 0x0000000000000088, 0x0000000080008009, 0x000000008000000A,
   0x000000008000808B, 0x800000000000008B, 0x8000000000008089, 0x8000000000008003] ++
  [0x8000000000008002, 0x8000000000000080, 0x000000000000800A, 0x800000008000000A,
   0x8000000080008081, 0x8000000000008080, 0x0000000080000001, 0x8000000080008008]

/-- `RC[rnd]` (R40). Every caller has `rnd < 24`, so the zero beyond the ROM is never read (R112). -/
def roundConstant (rnd : Nat) : Lane := RC.getD rnd 0

/-- ROM `R[x,y]` (R41): the rotation offset of each lane. -/
def rhoOffsets : Grid Nat :=
  ⟨⟨ 0,  1, 62, 28, 27⟩,
   ⟨36, 44,  6, 55, 20⟩,
   ⟨ 3, 10, 43, 25, 39⟩,
   ⟨41, 45, 15, 21,  8⟩,
   ⟨18,  2, 61, 56, 14⟩⟩

/-- ROM `T9[0..8]` (R43): the bit that each base-9 digit value carries. -/
def T9 : List Nat := [0, 0, 1, 1, 0, 0, 1, 1, 0]

/-- `T9[d]` (R43). Every caller has `d < 9`, so the zero beyond the ROM is never read. -/
def t9 (d : Nat) : Nat := T9.getD d 0

/-- One step of the LFSR of R42(1), polynomial `x^8 + x^6 + x^5 + x^4 + 1`. -/
def lfsrStep (s : Nat) : Nat := if s < 128 then 2 * s else (2 * s) % 256 ^^^ 0x71

/-- `rc(t)` of R42(1): the LFSR's output bit at time `t`, with `rc(0) = 1`. -/
def rcBit (t : Nat) : Nat := (lfsrStep^[t % 255] 1) % 2

/-- R42(1): the round constant of round `i` by its generator. -/
def generatedRC (i : Nat) : Lane :=
  (List.range 7).foldl (fun v j => v ||| BitVec.ofNat 64 (rcBit (j + 7 * i) <<< (2 ^ j - 1))) 0

/-- R42(2) from time `t` on, for `fuel` positions: each position with its offset
`((t+1)(t+2)/2) mod 64`. -/
def offsetWalk : (fuel t : Nat) → (x y : Fin 5) → List ((Fin 5 × Fin 5) × Nat)
  | 0, _, _, _ => []
  | fuel + 1, t, x, y => ((x, y), (t + 1) * (t + 2) / 2 % 64) :: offsetWalk fuel (t + 1) y (2 * x + 3 * y)

/-- R42(2): the walk from `(1, 0)` over `t = 0..23`. -/
def generatedOffsets : List ((Fin 5 × Fin 5) × Nat) := offsetWalk 24 0 1 0

end Sys2Proof.Machine
end

