-- ==== Sys2Proof/Machine/Binary.lean ====
section
/-! DEFINITION. The binary permutation engine (41_binary_permutation.md): the step mappings as pure
functions of a grid, the datapath steps over the working grid, and the meanings of THETA, RHO, PI,
CHI, IOTA, ROUND and PERMUTE_BIN. -/

namespace Sys2Proof.Machine

/-! ## Step mappings -/

/-- `rotl(v, n)` (00_scope.md R12): circular left rotation; rotation by 0 is the identity. -/
def rotl (v : Lane) (n : Nat) : Lane := v.rotateLeft n

/-- `c[x]`: the XOR of the five lanes of column `x` (R140). -/
def columnParity (a : Grid Lane) : Row Lane :=
  Row.ofFn fun x => a.get x 0 ^^^ a.get x 1 ^^^ a.get x 2 ^^^ a.get x 3 ^^^ a.get x 4

/-- THETA (R140). -/
def theta (a : Grid Lane) : Grid Lane :=
  let c := columnParity a
  Grid.ofFn fun x y => a.get x y ^^^ c.get (x - 1) ^^^ rotl (c.get (x + 1)) 1

/-- RHO (R141). -/
def rho (a : Grid Lane) : Grid Lane := Grid.ofFn fun x y => rotl (a.get x y) (rhoOffsets.get x y)

/-- PI (R142) and PI9 (R215): `out[y, 2x+3y] = a[x,y]`, in the gather form R142 gives,
`out[X,Y] = a[X+3Y, X]`. -/
def relocate {α : Type} (a : Grid α) : Grid α := Grid.ofFn fun X Y => a.get (X + 3 * Y) X

/-- CHI (R143). -/
def chi (a : Grid Lane) : Grid Lane :=
  Grid.ofFn fun x y => a.get x y ^^^ (~~~ a.get (x + 1) y &&& a.get (x + 2) y)

/-- Lane (0,0) replaced, the other lanes as they were (R144, R217). -/
def setOrigin {α : Type} (a : Grid α) (v : α) : Grid α := { a with y0 := { a.y0 with x0 := v } }

/-- IOTA (R144). -/
def iota (a : Grid Lane) (rnd : Nat) : Grid Lane := setOrigin a (a.get 0 0 ^^^ roundConstant rnd)

/-- ROUND (R145): THETA first, IOTA last. -/
def round (a : Grid Lane) (rnd : Nat) : Grid Lane := iota (chi (relocate (rho (theta a)))) rnd

/-- `KECCAK_F` (R150): 24 rounds, each reading the output of the one before. -/
def keccakF (a : Grid Lane) : Grid Lane := (List.range Config.numRounds).foldl round a

/-! ## Datapath steps over the working grid `A` (10_state.md R35) -/

/-- THETA keeps the column sums it computed in `c`. -/
def Work.thetaStep (w : Work) : Work :=
  { w with c := .binary (columnParity w.A), A := theta w.A }

/-- RHO. -/
def Work.rhoStep (w : Work) : Work := { w with A := rho w.A }

/-- PI builds its output in the copy `B`, which then becomes the grid (R363). -/
def Work.piStep (w : Work) : Work := { w with B := .binary (relocate w.A), A := relocate w.A }

/-- CHI. -/
def Work.chiStep (w : Work) : Work := { w with A := chi w.A }

/-- IOTA. -/
def Work.iotaStep (rnd : Nat) (w : Work) : Work := { w with A := iota w.A rnd }

/-- ROUND: the five steps in the order of R145. -/
def Work.roundStep (rnd : Nat) (w : Work) : Work :=
  w.thetaStep.rhoStep.piStep.chiStep.iotaStep rnd

/-- One round of a permutation: the round counter selects the constant (10_state.md R37). -/
def Work.countedRound (w : Work) (r : Nat) : Work :=
  ({ w with rnd := BitVec.ofNat 5 r }).roundStep r

/-- `KECCAK_F` on the working grid (R150): the counter runs from 0 to 23 (10_state.md R37). -/
def Work.keccakFStep (w : Work) : Work := (List.range Config.numRounds).foldl Work.countedRound w

/-! ## Meanings -/

/-- A micro-op that uses `rnd`: the datapath step of a legal round index, INTERNAL_ASSERT for a
reserved word (30_encoding.md R112). The index is the word's; the round counter `work.rnd` is neither
loaded nor advanced, which is a DESIGN CHOICE where 10_state.md R37 is silent (log entry 25). -/
def State.withRound (s : State) (rnd : BitVec 5) (step : Nat → Work) : Except Raise State := do
  require (decide (rnd.toNat < Config.numRounds)) .internalAssert 0
  return { s with work := step rnd.toNat }

/-- THETA (R140). -/
def execTheta (s : State) : Result := s.conclude (.ok { s with work := s.work.thetaStep })

/-- RHO (R141). -/
def execRho (s : State) : Result := s.conclude (.ok { s with work := s.work.rhoStep })

/-- PI (R142). -/
def execPi (s : State) : Result := s.conclude (.ok { s with work := s.work.piStep })

/-- CHI (R143). -/
def execChi (s : State) : Result := s.conclude (.ok { s with work := s.work.chiStep })

/-- IOTA (R144). -/
def execIota (rnd : BitVec 5) (s : State) : Result :=
  s.conclude (s.withRound rnd fun r => s.work.iotaStep r)

/-- ROUND (R145). -/
def execRound (rnd : BitVec 5) (s : State) : Result :=
  s.conclude (s.withRound rnd fun r => s.work.roundStep r)

/-- PERMUTE_BIN (R151): the operand becomes the working grid, KECCAK_F runs, the working grid is the
response. `S` and STATUS are neither read nor written. -/
def execPermuteBin (grid : Grid Lane) (s : State) : Result :=
  let w := ({ s.work with A := grid }).keccakFStep
  s.conclude (.ok (({ s with work := w }).respond (bytesOfGrid64 w.A)))

end Sys2Proof.Machine
end

