-- ==== Sys2Proof/Machine/Codec.lean ====
section
/-! DEFINITION. The redundant-base lane codec (42_digit_codec.md): encoders, digit and lane decoders,
and the meanings of ENC13, ENC9, DEC13D, DEC9D, DEC13L and DEC9L. -/

namespace Sys2Proof.Machine

/-! ## Functions -/

/-- `Σ_{i=0..n-1} f(i)`, an exact integer sum (00_scope.md R18). -/
def sumBelow (f : Nat → Nat) : Nat → Nat
  | 0 => 0
  | n + 1 => sumBelow f n + f n

/-- `digit_B(n, i) = floor(n / B^i) mod B` (00_scope.md R15). -/
def digit (B n i : Nat) : Nat := n / B ^ i % B

/-- `w[i]` as a number (00_scope.md R10). -/
def bitNat (w : Lane) (i : Nat) : Nat := (w.getLsbD i).toNat

/-- `ENC_B(w)` (R180). -/
def encLane (B : Nat) (w : Lane) : RedLane := sumBelow (fun i => B ^ i * bitNat w i) Config.laneBits

/-- The word whose bit `i` is `bit i`. -/
def wordOfBits (bit : Nat → Nat) : Lane :=
  BitVec.ofNat 64 (sumBelow (fun i => 2 ^ i * bit i) Config.laneBits)

/-- The bit of a base-13 digit is its parity (10_state.md R44, R185). -/
def digitBit13 (d : Nat) : Nat := d % 2

/-- `DEC_13(n)` (R181). -/
def decLane13 (n : RedLane) : Lane := wordOfBits fun i => digitBit13 (digit 13 n i)

/-- `DEC_9(n)` (R181). -/
def decLane9 (n : RedLane) : Lane := wordOfBits fun i => t9 (digit 9 n i)

/-- Canonical in base `B` (R182): below `B^64` with every digit 0 or 1. -/
def canonical (B : Nat) (n : RedLane) : Bool :=
  decide (n < B ^ Config.laneBits) &&
    (List.range Config.laneBits).all fun i => decide (digit B n i ≤ 1)

/-! ## Meanings -/

/-- ENC13 (R183). -/
def execEnc13 (w : Lane) (s : State) : Result :=
  s.conclude (.ok (s.respond (leBytes256 (encLane 13 w))))

/-- ENC9 (R184). -/
def execEnc9 (w : Lane) (s : State) : Result :=
  s.conclude (.ok (s.respond (leBytes256 (encLane 9 w))))

/-- DEC13D (R185): DIGIT_RANGE above 12. -/
def execDec13d (d : Byte) (s : State) : Result :=
  s.conclude do
    require (decide (d.toNat ≤ 12)) .digitRange d
    return s.respond [BitVec.ofNat 8 (digitBit13 d.toNat)]

/-- DEC9D (R186): DIGIT_RANGE above 8. -/
def execDec9d (d : Byte) (s : State) : Result :=
  s.conclude do
    require (decide (d.toNat ≤ 8)) .digitRange d
    return s.respond [BitVec.ofNat 8 (t9 d.toNat)]

/-- DEC13L (R187): LANE_RANGE from `13^64`. -/
def execDec13l (n : RedOperand) (s : State) : Result :=
  s.conclude do
    require (decide (n.toNat < 13 ^ Config.laneBits)) .laneRange 0
    return s.respond (leBytes64 (decLane13 n.toNat))

/-- DEC9L (R188): LANE_RANGE from `9^64`. -/
def execDec9l (n : RedOperand) (s : State) : Result :=
  s.conclude do
    require (decide (n.toNat < 9 ^ Config.laneBits)) .laneRange 0
    return s.respond (leBytes64 (decLane9 n.toNat))

end Sys2Proof.Machine
end

