-- ==== Sys2Proof/Machine/Sponge.lean ====
section
/-! DEFINITION. The sponge (44_sponge.md): the padding rule, absorb and squeeze as functions, and the
meanings of PAD, ABSORB and SQUEEZE. -/

namespace Sys2Proof.Machine

/-! ## Functions -/

/-- `PAD(L, rate)` (R251): `p = rate − (L mod rate)` bytes, `81`, or `01 00^(p−2) 80`. -/
def padding (len rate : Nat) : List Byte :=
  let p := rate - len % rate
  if p = 1 then [0x81] else 0x01 :: List.replicate (p - 2) 0x00 ++ [0x80]

/-- The padded message (R252): `m ++ PAD(len(m), RATE_BYTES)`. -/
def padMessage (m : List Byte) : List Byte := m ++ padding m.length Config.rateBytes

/-- Block `k` of a padded message (R254). -/
def block (P : List Byte) (k : Nat) : List Byte := field (Config.rateBytes * k) Config.rateBytes P

/-- XOR of a block into the rate lanes (R254, R255): word `j` goes to lane index `j`; the capacity
lanes are untouched. -/
def xorBlock (a : Grid Lane) (b : List Byte) : Grid Lane :=
  Grid.ofFn fun x y =>
    let j := laneIndex x y
    if j < Config.rateBytes / 8 then a.get x y ^^^ le64 (field (8 * j) 8 b) else a.get x y

/-- One block of absorb (R254): XOR, then one permutation of the whole grid. -/
def absorbBlock (P : List Byte) (a : Grid Lane) (k : Nat) : Grid Lane :=
  keccakF (xorBlock a (block P k))

/-- Absorb of a padded message (R254). -/
def absorb (a : Grid Lane) (P : List Byte) : Grid Lane :=
  (List.range (P.length / Config.rateBytes)).foldl (absorbBlock P) a

/-- The digest (R256): the first `CAPACITY_BYTES / 2` bytes of the lanes in lane-index order. -/
def squeeze (a : Grid Lane) : List Byte := (bytesOfGrid64 a).take Config.digestBytes

/-- `Keccak256(m)` (45_hash_controller.md R287). -/
def keccak256 (m : List Byte) : List Byte := squeeze (absorb (Grid.fill 0) (padMessage m))

/-- Byte `k` of the 1600-bit state read as 200 bytes (20_memory.md R73). -/
def stateByte (a : Grid Lane) (k : Nat) : Byte :=
  ((a.lanes.getD (k / 8) 0).extractLsb' (8 * (k % 8)) 8)

/-! ## Datapath steps -/

/-- PAD: the padded message is held in the buffer `P` (R252). -/
def Work.padStep (m : List Byte) (w : Work) : Work := { w with P := padMessage m }

/-- One block of ABSORB on the working copy `A` (R254); `k` counts the blocks. -/
def Work.absorbBlockStep (w : Work) (k : Nat) : Work :=
  ({ w with k := k, A := xorBlock w.A (block w.P k) }).keccakFStep

/-- ABSORB of the buffer `P` (R254): `S` is copied to `A` and written once, at the end. The length is
checked before anything changes. -/
def State.absorbStep (s : State) : Except Raise State := do
  require (decide (s.work.P.length % Config.rateBytes = 0)) .absorbLength 0
  let w := (List.range (s.work.P.length / Config.rateBytes)).foldl Work.absorbBlockStep
    { s.work with A := s.S }
  return { s with work := w, S := w.A }

/-- SQUEEZE (R256): the digest is written to the response buffer; `S` is only read. -/
def State.squeezeStep (s : State) : State := s.memWrite 0 (squeeze s.S)

/-- The message of an INGEST operand buffer: the bytes after the length field (30_encoding.md R103). -/
def messageOf (operand : Memory) : List Byte := operand.readFrom 8

/-! ## Meanings -/

/-- PAD (R252): the message is that of the current command's operand buffer. -/
def execPad (s : State) : Result :=
  s.conclude (.ok { s with work := s.work.padStep (messageOf s.operand) })

/-- ABSORB (R254): ABSORB_LENGTH when the buffer is not whole blocks. -/
def execAbsorb (s : State) : Result := s.conclude s.absorbStep

/-- SQUEEZE (R256). -/
def execSqueeze (s : State) : Result := s.conclude (.ok s.squeezeStep)

end Sys2Proof.Machine
end

