-- ==== Sys2Proof/Machine/Controller.lean ====
section
/-! DEFINITION. The hash controller (45_hash_controller.md): the meanings of NEW, INGEST and FINALIZE.
Its only state is `S` (R280). -/

namespace Sys2Proof.Machine

/-- NEW (R281): every lane of `S` is 0; STATUS is not cleared. The rate and the capacity are
hardwired, so nothing else has an effect (10_state.md R33). -/
def execNew (s : State) : Result := s.conclude (.ok (({ s with S := Grid.fill 0 }).respond []))

/-- INGEST in a build with the given `MaxMessageBytes` (R282): the length limit, then the micro-ops
PAD and ABSORB. It absorbs into the current `S`, whatever that is (R284). -/
def ingestWith (limit len : BitVec 64) (msg : List Byte) (s : State) : Result :=
  s.conclude do
    require (decide (len ≤ limit)) .msgTooLong 0
    let t ← ({ s with work := s.work.padStep msg }).absorbStep
    return t.respond []

/-- INGEST (R282). -/
def execIngest (len : BitVec 64) (msg : List Byte) (s : State) : Result :=
  ingestWith Config.maxMessageBytes len msg s

/-- FINALIZE (R283): the micro-op SQUEEZE into a new response. `S` is not changed. -/
def execFinalize (s : State) : Result := s.conclude (.ok s.beginResponse.squeezeStep.deliver)

end Sys2Proof.Machine
end

