-- ==== Sys2Proof/Machine/Redundant.lean ====
section
/-! DEFINITION. The redundant-base permutation engine (43_redundant_permutation.md): the redundant
steps as pure functions of a grid of integers, the datapath steps over the working grid `Q`, and the
meanings of THETA13, RHO13TO9, PI9, CHI9, IOTA9, CONV9TO13, ROUND_RED and PERMUTE_RED. The two
conversions check their preconditions, which R214 and R219 allow (log entry 9): a violation has no
output grid. -/

namespace Sys2Proof.Machine

/-! ## Step functions -/

/-- `c[x]`: the sum of the five lanes of column `x` (R211). -/
def columnSum (a : Grid RedLane) : Row RedLane :=
  Row.ofFn fun x => a.get x 0 + a.get x 1 + a.get x 2 + a.get x 3 + a.get x 4

/-- THETA13 (R211): exact sums, nothing is reduced. -/
def theta13 (a : Grid RedLane) : Grid RedLane :=
  let c := columnSum a
  Grid.ofFn fun x y => a.get x y + c.get (x - 1) + 13 * c.get (x + 1)

/-- The folded bit `i` of a THETA13 output lane (R213): digit 64 is folded into bit 0. -/
def foldedBit (n : RedLane) (i : Nat) : Nat :=
  if i = 0 then (digit 13 n 0 + digit 13 n 64) % 2 else digit 13 n i % 2

/-- `FOLD13(n)`: the word of the folded bits (R223). -/
def fold13 (n : RedLane) : Lane := wordOfBits (foldedBit n)

/-- `CONV13TO9_ROT(n, r)` (R213). -/
def conv13to9Rot (n : RedLane) (r : Nat) : RedLane :=
  sumBelow (fun i => 9 ^ ((i + r) % Config.laneBits) * foldedBit n i) Config.laneBits

/-- The precondition of R213: at most 65 digits. Digits of base 13 are at most 12 by definition. -/
def foldable (n : RedLane) : Bool := decide (n < 13 ^ 65)

/-- RHO13TO9 (R214). -/
def rho13to9 (a : Grid RedLane) : Option (Grid RedLane) :=
  if a.all foldable then some (Grid.ofFn fun x y => conv13to9Rot (a.get x y) (rhoOffsets.get x y))
  else none

/-- CHI9 (R216). -/
def chi9 (a : Grid RedLane) : Grid RedLane :=
  Grid.ofFn fun x y => 2 * a.get x y + a.get (x + 1) y + 3 * a.get (x + 2) y

/-- IOTA9 (R217): digits 0 and 2 are added, not 0 and 1. -/
def iota9 (a : Grid RedLane) (rnd : Nat) : Grid RedLane :=
  setOrigin a (a.get 0 0 + 2 * encLane 9 (roundConstant rnd))

/-- One lane of CONV9TO13 (R219). -/
def conv9to13Lane (n : RedLane) : RedLane :=
  sumBelow (fun i => 13 ^ i * t9 (digit 9 n i)) Config.laneBits

/-- The precondition of R219: at most 64 base-9 digits. -/
def convertible (n : RedLane) : Bool := decide (n < 9 ^ Config.laneBits)

/-- CONV9TO13 (R219). -/
def conv9to13 (a : Grid RedLane) : Option (Grid RedLane) :=
  if a.all convertible then some (a.map conv9to13Lane) else none

/-- ROUND_RED (R220), in the order of the round driver (R210). -/
def roundRed (a : Grid RedLane) (rnd : Nat) : Option (Grid RedLane) :=
  (rho13to9 (theta13 a)).bind fun b => conv9to13 (iota9 (chi9 (relocate b)) rnd)

/-- `KECCAK_F_RED` (R221): 24 rounds. -/
def keccakFRed (a : Grid RedLane) : Option (Grid RedLane) :=
  (List.range Config.numRounds).foldlM roundRed a

/-! ## Datapath steps over the working grid `Q` (10_state.md R35) -/

/-- THETA13 keeps the column sums it computed in `c`. -/
def Work.theta13Step (w : Work) : Work :=
  { w with c := .base13 (columnSum w.Q), Q := theta13 w.Q }

/-- RHO13TO9. -/
def Work.rho13to9Step (w : Work) : Option Work := (rho13to9 w.Q).map fun q => { w with Q := q }

/-- PI9 builds its output in the copy `B`, which then becomes the grid (R363). -/
def Work.pi9Step (w : Work) : Work := { w with B := .redundant (relocate w.Q), Q := relocate w.Q }

/-- CHI9. -/
def Work.chi9Step (w : Work) : Work := { w with Q := chi9 w.Q }

/-- IOTA9. -/
def Work.iota9Step (rnd : Nat) (w : Work) : Work := { w with Q := iota9 w.Q rnd }

/-- CONV9TO13. -/
def Work.conv9to13Step (w : Work) : Option Work := (conv9to13 w.Q).map fun q => { w with Q := q }

/-- ROUND_RED (R220). -/
def Work.roundRedStep (rnd : Nat) (w : Work) : Option Work :=
  w.theta13Step.rho13to9Step.bind fun v => (v.pi9Step.chi9Step.iota9Step rnd).conv9to13Step

/-- One round of a redundant permutation: the round counter selects the constant (10_state.md R37). -/
def Work.countedRoundRed (w : Work) (r : Nat) : Option Work :=
  ({ w with rnd := BitVec.ofNat 5 r }).roundRedStep r

/-- `KECCAK_F_RED` on the working grid (R221). -/
def Work.keccakFRedStep (w : Work) : Option Work :=
  (List.range Config.numRounds).foldlM Work.countedRoundRed w

/-! ## Meanings -/

/-- A datapath step whose internal precondition may fail: INTERNAL_ASSERT (60_exceptions.md R310). -/
def internally {α : Type} : Option α → Except Raise α
  | some a => .ok a
  | none => .error ⟨.internalAssert, 0⟩

/-- THETA13 (R211). -/
def execTheta13 (s : State) : Result := s.conclude (.ok { s with work := s.work.theta13Step })

/-- RHO13TO9 (R214). -/
def execRho13to9 (s : State) : Result :=
  s.conclude do
    let w ← internally s.work.rho13to9Step
    return { s with work := w }

/-- PI9 (R215). -/
def execPi9 (s : State) : Result := s.conclude (.ok { s with work := s.work.pi9Step })

/-- CHI9 (R216). -/
def execChi9 (s : State) : Result := s.conclude (.ok { s with work := s.work.chi9Step })

/-- IOTA9 (R217). -/
def execIota9 (rnd : BitVec 5) (s : State) : Result :=
  s.conclude (s.withRound rnd fun r => s.work.iota9Step r)

/-- CONV9TO13 (R219). -/
def execConv9to13 (s : State) : Result :=
  s.conclude do
    let w ← internally s.work.conv9to13Step
    return { s with work := w }

/-- ROUND_RED (R220). The round index is the word's and the round counter is left alone: DESIGN CHOICE
(log entry 25). -/
def execRoundRed (rnd : BitVec 5) (s : State) : Result :=
  s.conclude do
    require (decide (rnd.toNat < Config.numRounds)) .internalAssert 0
    let w ← internally (s.work.roundRedStep rnd.toNat)
    return { s with work := w }

/-- The lowest lane index from `i` on whose lane is not canonical in base 13 (R222, R313). -/
def firstNonCanonical (i : Nat) : List RedLane → Option Nat
  | [] => none
  | n :: ns => if canonical 13 n then firstNonCanonical (i + 1) ns else some i

/-- The domain check of PERMUTE_RED (R222): RED_INPUT with the lowest offending lane index. -/
def requireCanonical (a : Grid RedLane) : Except Raise Unit :=
  match firstNonCanonical 0 a.lanes with
  | none => .ok ()
  | some i => .error ⟨.redInput, BitVec.ofNat 8 i⟩

/-- PERMUTE_RED (R222): the operand is checked before any round runs. `S` is neither read nor
written. -/
def execPermuteRed (grid : Grid RedOperand) (s : State) : Result :=
  s.conclude do
    requireCanonical (redLanes grid)
    let w ← internally ({ s.work with Q := redLanes grid }).keccakFRedStep
    return ({ s with work := w }).respond (bytesOfGrid256 w.Q)

end Sys2Proof.Machine
end

