-- ==== Sys2Proof/Machine/Dispatch.lean ====
section
/-! DEFINITION. The meaning of each instruction, one arm per constructor. -/

namespace Sys2Proof.Machine

def exec (i : Instr) (s : State) : Host.Outcome State Fault Refusal :=
  match i with
  | .new => Sys2Proof.Machine.execNew s
  | .ingest len msg => Sys2Proof.Machine.execIngest len msg s
  | .finalize => Sys2Proof.Machine.execFinalize s
  | .permuteBin grid => Sys2Proof.Machine.execPermuteBin grid s
  | .permuteRed grid => Sys2Proof.Machine.execPermuteRed grid s
  | .enc13 w => Sys2Proof.Machine.execEnc13 w s
  | .enc9 w => Sys2Proof.Machine.execEnc9 w s
  | .dec13d d => Sys2Proof.Machine.execDec13d d s
  | .dec9d d => Sys2Proof.Machine.execDec9d d s
  | .dec13l n => Sys2Proof.Machine.execDec13l n s
  | .dec9l n => Sys2Proof.Machine.execDec9l n s
  | .theta => Sys2Proof.Machine.execTheta s
  | .rho => Sys2Proof.Machine.execRho s
  | .pi => Sys2Proof.Machine.execPi s
  | .chi => Sys2Proof.Machine.execChi s
  | .iota rnd => Sys2Proof.Machine.execIota rnd s
  | .round rnd => Sys2Proof.Machine.execRound rnd s
  | .theta13 => Sys2Proof.Machine.execTheta13 s
  | .rho13to9 => Sys2Proof.Machine.execRho13to9 s
  | .pi9 => Sys2Proof.Machine.execPi9 s
  | .chi9 => Sys2Proof.Machine.execChi9 s
  | .iota9 rnd => Sys2Proof.Machine.execIota9 rnd s
  | .conv9to13 => Sys2Proof.Machine.execConv9to13 s
  | .roundRed rnd => Sys2Proof.Machine.execRoundRed rnd s
  | .pad => Sys2Proof.Machine.execPad s
  | .absorb => Sys2Proof.Machine.execAbsorb s
  | .squeeze => Sys2Proof.Machine.execSqueeze s

end Sys2Proof.Machine
end

