-- ==== Sys2Proof/Machine/Step.lean ====
section
/-! DEFINITION. One step of the block: what the host does to it, a micro-op word of the sequencer, or
a command frame. -/

namespace Sys2Proof.Machine

/-- The host asserts power-on reset next. Reset wins over anything the block could do (R350,
93_implementation_defined.md I17). -/
def State.resetPending (s : State) : Bool := s.inbox.head? == some .assertReset

/-- The sequencer issues a micro-op word (30_encoding.md R110); a reserved word raises
INTERNAL_ASSERT (R112). -/
def State.issue (s : State) (w : UopWord) (ws : List UopWord) : Result :=
  match decodeUop w with
  | .ok i => exec i { s with sequencer := ws }
  | .error _ => .next (s.raise ⟨.internalAssert, 0⟩)

/-- The frame decoder: a whole frame is taken and its command runs, as one atomic step (20_memory.md
R80); an unassigned opcode raises ILLEGAL_COMMAND (30_encoding.md R109); otherwise the block waits
for the host (R108). -/
def State.receive (s : State) : Result :=
  match decodeFrame s.rx with
  | .command i operand rest => exec i (s.takeFrame operand rest)
  | .illegal op => .next (s.raise ⟨.illegalCommand, op⟩)
  | .wait => .next s.hostEvent

/-- One step. In reset (R353) and in the halted state (60_exceptions.md R311) the block runs nothing
and only the host acts. -/
def step (s : State) : Host.Outcome State Fault Refusal :=
  if s.resetPending || s.inReset || s.halted then .next s.hostEvent
  else
    match s.sequencer with
    | w :: ws => s.issue w ws
    | [] => s.receive

/-- The state whose next step runs the instruction of a word of spec/opcode_table.json (log entries
12 and 13): a frame stands complete in the frame decoder, a micro-op word in the sequencer, and the
host does nothing. -/
def State.withFetchWord (s : State) (nbits w : Nat) : State :=
  match tableEncoding nbits w with
  | some (.frame bytes) => { s with rx := bytes, sequencer := [], inbox := [], inReset := false }
  | some (.uop word) => { s with sequencer := [word], inbox := [], inReset := false }
  | none => s

end Sys2Proof.Machine
end

