-- ==== Sys2Proof/Machine/Assembler.lean ====
section
/-! DEFINITION. The command-stream assembly of 30_encoding.md R113 and R114, from its lines on: what
each line denotes, the expansion of the two pseudo-commands, and the frames a program sends. It is
the host's tool and no part of the block (log entry 19). -/

namespace Sys2Proof.Machine

/-- One line of R113 or R114, with the value that its operand text denotes. -/
inductive AsmLine where
  | new
  /-- A quoted string or `hex:` digits: both denote a byte string, and the assembler counts it. -/
  | ingest (msg : List Byte)
  | finalize
  /-- 25 lanes in braces. -/
  | permuteBin (grid : Grid Lane)
  /-- `zero`. -/
  | permuteBinZero
  /-- 25 integers in braces. -/
  | permuteRed (grid : Grid Nat)
  /-- `enc13(<grid>)`. -/
  | permuteRedEnc13 (grid : Grid Lane)
  | enc13 (w : Nat)
  | enc9 (w : Nat)
  | dec13d (d : Nat)
  | dec9d (d : Nat)
  | dec13l (n : Nat)
  | dec9l (n : Nat)
  /-- Pseudo-command `HASH <msg>` (R114). -/
  | hash (msg : List Byte)
  /-- Pseudo-command `XCHECK <grid>` (R114). -/
  | xcheck (grid : Grid Lane)
deriving DecidableEq, Repr

/-- ENC13 of each lane of a binary grid (R113, R223). -/
def encGrid13 (g : Grid Lane) : Grid RedLane := g.map (encLane 13)

/-- An integer operand of the given width; `none` if it does not fit (R113). -/
def asmInt (width n : Nat) : Option (BitVec width) :=
  if n < 2 ^ width then some (BitVec.ofNat width n) else none

/-- INGEST of a byte string: `L` is its byte count (R113). -/
def asmIngest (msg : List Byte) : Option Instr :=
  (asmInt 64 msg.length).map fun len => .ingest len msg

/-- PERMUTE_RED of 25 integers (R113). -/
def asmPermuteRed (g : Grid Nat) : Option Instr :=
  if g.all fun n => decide (n < 2 ^ 256) then some (.permuteRed (g.map (BitVec.ofNat 256))) else none

/-- The commands of one line, pseudo-commands expanded (R114); `none` where an operand does not fit. -/
def AsmLine.expand : AsmLine → Option (List Instr)
  | .new => some [.new]
  | .ingest msg => (asmIngest msg).map fun i => [i]
  | .finalize => some [.finalize]
  | .permuteBin g => some [.permuteBin g]
  | .permuteBinZero => some [.permuteBin (Grid.fill 0)]
  | .permuteRed g => (asmPermuteRed g).map fun i => [i]
  | .permuteRedEnc13 g => (asmPermuteRed (encGrid13 g)).map fun i => [i]
  | .enc13 w => (asmInt 64 w).map fun v => [.enc13 v]
  | .enc9 w => (asmInt 64 w).map fun v => [.enc9 v]
  | .dec13d d => (asmInt 8 d).map fun v => [.dec13d v]
  | .dec9d d => (asmInt 8 d).map fun v => [.dec9d v]
  | .dec13l n => (asmInt 256 n).map fun v => [.dec13l v]
  | .dec9l n => (asmInt 256 n).map fun v => [.dec9l v]
  | .hash msg => (asmIngest msg).map fun i => [.new, i, .finalize]
  | .xcheck g => (asmPermuteRed (encGrid13 g)).map fun i => [.permuteBin g, i]

/-- The bytes of an encoding that the host can send; a micro-op word has none (R100). -/
def Encoding.hostBytes : Encoding → List Byte
  | .frame bs => bs
  | .uop _ => []

/-- The bytes the host sends for a program. -/
def assemble (lines : List AsmLine) : Option (List Byte) :=
  (lines.mapM AsmLine.expand).map fun iss => iss.flatten.flatMap fun i => Encoding.hostBytes (encode i)

end Sys2Proof.Machine
end

