-- ==== Sys2Proof/Machine/AssemblerText.lean ====
section
/-! DEFINITION. The characters of the command-stream assembly (30_encoding.md R113 and R114): from the
text of a program to its lines, and from there to the frames the host sends. It is the host's tool and
no part of the block (log entry 19). -/

namespace Sys2Proof.Machine

/-- The double quote. -/
def quoteChar : Char := Char.ofNat 0x22

/-- The opening brace. -/
def openBrace : Char := Char.ofNat 0x7B

/-- The closing brace. -/
def closeBrace : Char := Char.ofNat 0x7D

def isBlank (c : Char) : Bool := c == ' ' || c == '\t' || c == '\r'

/-- The text without the blanks at both ends. -/
def trim (cs : List Char) : List Char := ((cs.dropWhile isBlank).reverse.dropWhile isBlank).reverse

/-- The text before a comment (R113). A semicolon inside a quoted string is a character of it. -/
def beforeComment (quoted : Bool) : List Char → List Char
  | [] => []
  | c :: cs =>
    if c == quoteChar then c :: beforeComment (!quoted) cs
    else if c == ';' && !quoted then [] else c :: beforeComment quoted cs

/-- The parts of a text between separators. -/
def splitAt (sep : Char) : List Char → List (List Char)
  | [] => [[]]
  | c :: cs =>
    if c == sep then [] :: splitAt sep cs
    else
      match splitAt sep cs with
      | [] => [[c]]
      | part :: parts => (c :: part) :: parts

/-- The value of a digit below the base. -/
def digitOf (base : Nat) (c : Char) : Option Nat :=
  let n := c.toNat
  let v :=
    if 0x30 ≤ n ∧ n ≤ 0x39 then n - 0x30
    else if 0x61 ≤ n ∧ n ≤ 0x66 then n - 0x61 + 10
    else if 0x41 ≤ n ∧ n ≤ 0x46 then n - 0x41 + 10
    else base
  if v < base then some v else none

/-- A numeral of one digit or more. -/
def numeral (base : Nat) : List Char → Option Nat
  | [] => none
  | c :: cs => (c :: cs).foldlM (fun v d => (digitOf base d).map fun k => base * v + k) 0

/-- A decimal or hex integer (R113): hex has the prefix `0x`. -/
def integer : List Char → Option Nat
  | '0' :: 'x' :: cs => numeral 16 cs
  | cs => numeral 10 cs

/-- A hex lane (R113), with or without the prefix `0x`. -/
def hexLane (cs : List Char) : Option Lane :=
  (match cs with
    | '0' :: 'x' :: ds => numeral 16 ds
    | ds => numeral 16 ds).bind (asmInt 64)

/-- An even number of hex digits, two a byte (R113). -/
def hexBytes : List Char → Option (List Byte)
  | [] => some []
  | [_] => none
  | c :: d :: cs => do
    let v ← numeral 16 [c, d]
    let bs ← hexBytes cs
    return BitVec.ofNat 8 v :: bs

/-- The characters between an opening and a closing one. -/
def enclosed (left right : Char) : List Char → Option (List Char)
  | [] => none
  | c :: cs =>
    match cs.reverse with
    | [] => none
    | d :: ds => if c == left && d == right then some ds.reverse else none

/-- The bytes of a quoted ASCII string. -/
def asciiBytes (cs : List Char) : Option (List Byte) :=
  if cs.all fun c => decide (c.toNat < 128) && c != quoteChar then
    some (cs.map fun c => BitVec.ofNat 8 c.toNat)
  else none

/-- A message (R113): a quoted ASCII string, or `hex:` and hex digits. -/
def message : List Char → Option (List Byte)
  | 'h' :: 'e' :: 'x' :: ':' :: cs => hexBytes cs
  | cs => (enclosed quoteChar quoteChar cs).bind asciiBytes

/-- 25 comma-separated items in braces, in lane-index order (R113). -/
def braced {α : Type} (item : List Char → Option α) (cs : List Char) : Option (Grid α) := do
  let body ← enclosed openBrace closeBrace cs
  let l ← (splitAt ',' body).mapM fun part => item (trim part)
  match l with
  | [] => none
  | v :: vs => if (v :: vs).length = 25 then some (Grid.ofIndex fun i => (v :: vs).getD i v) else none

/-- A binary grid (R113): 25 hex lanes in braces, or `zero`. -/
def binaryGrid (cs : List Char) : Option (Grid Lane) :=
  if cs = ['z', 'e', 'r', 'o'] then some (Grid.fill 0) else braced hexLane cs

/-- The operand of PERMUTE_RED (R113). -/
def redundantLine : List Char → Option AsmLine
  | 'e' :: 'n' :: 'c' :: '1' :: '3' :: cs =>
    ((enclosed '(' ')' cs).bind fun g => binaryGrid (trim g)).map .permuteRedEnc13
  | cs => (braced integer cs).map .permuteRed

/-- A mnemonic and the reading of its operand; NEW and FINALIZE take none (R113, R114). -/
def lineOf (mnemonic : String) (operand : List Char) : Option AsmLine :=
  match mnemonic with
  | "NEW" => if operand = [] then some .new else none
  | "INGEST" => (message operand).map .ingest
  | "FINALIZE" => if operand = [] then some .finalize else none
  | "PERMUTE_BIN" =>
    if operand = ['z', 'e', 'r', 'o'] then some .permuteBinZero else (braced hexLane operand).map .permuteBin
  | "PERMUTE_RED" => redundantLine operand
  | "ENC13" => (integer operand).map .enc13
  | "ENC9" => (integer operand).map .enc9
  | "DEC13D" => (integer operand).map .dec13d
  | "DEC9D" => (integer operand).map .dec9d
  | "DEC13L" => (integer operand).map .dec13l
  | "DEC9L" => (integer operand).map .dec9l
  | "HASH" => (message operand).map .hash
  | "XCHECK" => (binaryGrid operand).map .xcheck
  | _ => none

/-- One line (R113): nothing on a blank or comment line, `none` where the text is no line. -/
def parseLine (cs : List Char) : Option (List AsmLine) :=
  let body := trim (beforeComment false cs)
  if body = [] then some []
  else
    let mnemonic := body.takeWhile fun c => !isBlank c
    (lineOf (String.ofList mnemonic) (trim (body.dropWhile fun c => !isBlank c))).map fun l => [l]

/-- The lines of a program, one command a line. -/
def parseProgram (text : List Char) : Option (List AsmLine) :=
  ((splitAt '\n' text).mapM parseLine).map List.flatten

/-- The bytes the host sends for the text of a program. -/
def assembleText (text : List Char) : Option (List Byte) := (parseProgram text).bind assemble

/-- What the host checks of an XCHECK (R114, 43_redundant_permutation.md R223): DEC13L of each lane of
the PERMUTE_RED response is the lane of the PERMUTE_BIN response. -/
def xcheckAgrees (bin red : List Byte) : Bool :=
  (List.range 25).all fun i =>
    decide (leNat (field (32 * i) 32 red) < 13 ^ Config.laneBits) &&
      decLane13 (leNat (field (32 * i) 32 red)) == le64 (field (8 * i) 8 bin)

end Sys2Proof.Machine
end

