-- ==== Sys2Proof/Safety.lean ====
section
/-! DEFINITION. What counts as a good state and a good run, in the terms that the statements use. -/

namespace Sys2Proof.Machine

/-! ## Good states -/

/-- The INFO value that goes with a cause (60_exceptions.md R310, R314): the opcode, the digit, the
lane index, or 0. Causes 9..15 are never written. -/
def infoFits (cause : BitVec 4) (info : Byte) : Bool :=
  match cause.toNat with
  | 1 => !assignedOpcode info
  | 4 => decide (9 ≤ info.toNat)
  | 5 => decide (info.toNat < 25)
  | c => decide (c ≤ 8) && info == 0

/-- The legal STATUS values (10_state.md R32): reserved bits 0, CAUSE 0 exactly while FAULT is 0, and
an INFO that goes with the cause. -/
def statusLegal (st : BitVec 16) : Bool :=
  reservedField st == 0 && (faultBit st == (causeField st != 0)) && infoFits (causeField st) (infoField st)

/-- The invariant of every step: a legal STATUS, both buffers in canonical form, and a round counter
in `0..23` (10_state.md R32, R37). -/
structure Good (s : State) : Prop where
  status : statusLegal s.status = true
  operand : s.operand.wf
  response : s.response.wf
  counter : s.work.rnd.toNat < Config.numRounds

/-- The causes that no frame can raise: INDEX_RANGE, ABSORB_LENGTH, INTERNAL_ASSERT (R310, R315). -/
def internalCause (st : BitVec 16) : Prop :=
  causeField st = Cause.indexRange.code ∨ causeField st = Cause.absorbLength.code ∨
    causeField st = Cause.internalAssert.code

/-- A state between commands that frames alone have led to: the sequencer is empty, as the host
cannot issue micro-op words (30_encoding.md R100), and no internal cause is recorded. -/
structure FrameState (s : State) : Prop where
  idle : s.sequencer = []
  cause : ¬ internalCause s.status

/-- The block may run: the host does not assert reset, and it is neither in reset nor halted. -/
def State.running (s : State) : Prop :=
  s.resetPending = false ∧ s.inReset = false ∧ s.halted = false

/-! ## What an instruction leaves unchanged -/

/-- Nothing changes but the transient state, which becomes `w` (10_state.md R35). -/
def OnlyWork (s t : State) (w : Work) : Prop := t = { s with work := w }

/-- The instruction completes with this response (30_encoding.md R101): the response buffer holds
exactly these bytes and they are delivered as one frame. -/
def Delivered (s t : State) (bytes : List Byte) : Prop :=
  t.tx = s.tx ++ [bytes] ∧ ∀ addr, t.response.read addr = bytes[addr]?

/-- A response and nothing else, with the transient state `w`: `S`, STATUS, the operand buffer and the
host's side are unchanged. -/
def OnlyResponse (s t : State) (bytes : List Byte) (w : Work) : Prop :=
  Delivered s t bytes ∧ t = { s with work := w, response := t.response, tx := t.tx }

/-- Fault entry and nothing else (R311, R312): `S`, the transient state and the responses are as they
were, STATUS records the cause and the information, and no bytes, words or operands are left. That the
arrived bytes and the pending words are discarded is DEDUCED from R311 (log entry 20), and that the
response buffer is emptied is a DESIGN CHOICE (log entry 11). -/
def Faulted (s t : State) (cause : Cause) (info : Byte) : Prop :=
  faultBit t.status = true ∧ causeField t.status = cause.code ∧ infoField t.status = info ∧
    reservedField t.status = reservedField s.status ∧
    t = { s with status := t.status, operand := [], response := [], sequencer := [], rx := [] }

/-! ## Runs -/

/-- The state after `k` steps; a step that does not answer a next state would stop the run. -/
def runSteps : Nat → State → State
  | 0, s => s
  | k + 1, s =>
    match step s with
    | .next t => runSteps k t
    | .fault _ => s
    | .refused _ => s

/-- `k` micro-op words issued one after another to the datapath (30_encoding.md R110): each must
decode, run and leave a next state. -/
def issueAll : List UopWord → State → Option State
  | [], s => some s
  | w :: ws, s =>
    match decodeUop w with
    | .error _ => none
    | .ok i =>
      match exec i s with
      | .next t => issueAll ws t
      | .fault _ => none
      | .refused _ => none

/-- The instructions run one after another from `s`, each completes, none faults, and `t` is the state
after the last. -/
def Completes : List Instr → State → State → Prop
  | [], s, t => t = s
  | i :: is, s, t => ∃ u, exec i s = .next u ∧ u.halted = false ∧ Completes is u t

/-- The words of a permutation (R150, R221): the round micro-op with `rnd = 0..23`. -/
def roundWords (uop : BitVec 5) : List UopWord :=
  (List.range Config.numRounds).map fun r => uopWord uop (BitVec.ofNat 5 r)

end Sys2Proof.Machine
end

