-- ==== Sys2Proof/Certificates/Slice0/Obligations.lean ====
section
/-! DEFINITION. The statements about the model. Each docstring names the rules of spec/ that it
formalises. -/

open Sys2Proof Sys2Proof.Machine

/-! ## Encoding, decoding and the step -/

/-- R115: the encodings of NEW, FINALIZE, INGEST of the empty message and of "foobar", ENC13 0x1 and
DEC9D 7 are the byte strings of the encoding examples. -/
def Obligations.EncodingExamplesOfTheSpec : Prop :=
  encode .new = .frame [0x01] ∧
  encode .finalize = .frame [0x03] ∧
  encode (.ingest 0 []) = .frame [0x02, 0, 0, 0, 0, 0, 0, 0, 0] ∧
  encode (.ingest 6 [0x66, 0x6f, 0x6f, 0x62, 0x61, 0x72]) =
    .frame [0x02, 0x06, 0, 0, 0, 0, 0, 0, 0, 0x66, 0x6f, 0x6f, 0x62, 0x61, 0x72] ∧
  encode (.enc13 0x1) = .frame [0x06, 0x01, 0, 0, 0, 0, 0, 0, 0] ∧
  encode (.dec9d 7) = .frame [0x09, 0x07]

/-- R103, R110, R111: words written out from the two opcode maps decode to their instructions, one or
more of each family. -/
def Obligations.SpecWordsDecode : Prop :=
  decode (.frame [0x01]) = .ok .new ∧
  decode (.frame [0x02, 0, 0, 0, 0, 0, 0, 0, 0]) = .ok (.ingest 0 []) ∧
  decode (.frame [0x03]) = .ok .finalize ∧
  decode (.frame [0x07, 0x34, 0x12, 0, 0, 0, 0, 0, 0]) = .ok (.enc9 0x1234) ∧
  decode (.frame [0x08, 0x0b]) = .ok (.dec13d 11) ∧
  decode (.frame [0x0A, 0x92, 0, 0, 0, 0, 0, 0, 0, 0, 0, 0, 0, 0, 0, 0, 0, 0, 0, 0, 0, 0, 0, 0, 0, 0, 0, 0,
    0, 0, 0, 0, 0]) = .ok (.dec13l 146) ∧
  decode (.uop 0b0000000010) = .ok .pi ∧
  decode (.uop 0b1011100101) = .ok (.round 23) ∧
  decode (.uop 0b0000001001) = .ok .rho13to9 ∧
  decode (.uop 0b0000101100) = .ok (.iota9 1) ∧
  decode (.uop 0b0000010001) = .ok .absorb

/-- R103, R111: every well-formed instruction, with every operand at every value its encoding admits, is
what its encoding decodes to. -/
def Obligations.DecodeOfEncode : Prop :=
  ∀ i : Instr, i.wf = true → decode (encode i) = .ok i

/-- R103, R108, R111: what the decoders accept is the encoding of what they answer. A frame is its
opcode byte and its operand buffer, and nothing after it is touched. -/
def Obligations.EncodeOfDecode : Prop :=
  (∀ bs i operand rest, decodeFrame bs = .command i operand rest →
    i.wf = true ∧ ∃ op, bs = op :: (operand ++ rest) ∧ encode i = .frame (op :: operand)) ∧
  (∀ w i, decodeUop w = .ok i → i.wf = true ∧ encode i = .uop w)

/-- R101, R84: a running block whose frame decoder holds a whole frame takes it: the step is `exec` of
the decoded command, on the state whose operand buffer is that frame's and whose arrived bytes are those
after it. A running block whose sequencer holds a micro-op word issues it: the step is `exec` of the
decoded micro-operation, with the word gone. That a micro-op word is a step of its own is the model's
choice (log entry 1): the spec gives only words issued inside one atomic command (R80, R110). -/
def Obligations.StepRunsTheDecodedInstruction : Prop :=
  (∀ (s : State) i operand rest, s.running → s.sequencer = [] →
    decodeFrame s.rx = .command i operand rest →
    step s = exec i { s with operand := Memory.ofBytes operand, rx := rest }) ∧
  (∀ (s : State) w ws i, s.running → s.sequencer = w :: ws → decodeUop w = .ok i →
    step s = exec i { s with sequencer := ws })

/-- R112: which micro-op words are reserved, and that issuing one raises INTERNAL_ASSERT. (That no frame
makes the sequencer issue one is FramesNeverRaiseInternalCauses.) -/
def Obligations.ReservedWordsRaiseInternalAssert : Prop :=
  (∀ w : UopWord, (∃ why, decodeUop w = .error why) ↔
    ((uopField w).toNat ∉ [0x00, 0x01, 0x02, 0x03, 0x04, 0x05, 0x08, 0x09, 0x0A, 0x0B, 0x0C, 0x0D, 0x0E,
        0x10, 0x11, 0x12] ∨
      24 ≤ (rndField w).toNat ∨
      (rndField w ≠ 0 ∧ (uopField w).toNat ∉ [0x04, 0x05, 0x0C, 0x0E]))) ∧
  (∀ (s : State) w ws, s.running → s.sequencer = w :: ws → (∃ why, decodeUop w = .error why) →
    ∃ t, step s = .next t ∧ Faulted s t .internalAssert 0)

/-- R109: a frame whose byte 0 is unassigned raises ILLEGAL_COMMAND with the opcode as INFO, whatever
bytes follow it. -/
def Obligations.UnassignedOpcodeRaisesIllegalCommand : Prop :=
  ∀ (s : State) (op : Byte) (rest : List Byte), s.running → s.sequencer = [] → s.rx = op :: rest →
    (op.toNat = 0x00 ∨ 0x0C ≤ op.toNat) →
    ∃ t, step s = .next t ∧ Faulted s t .illegalCommand op

/-- R108, R371: until all bytes of a frame have arrived the block waits and nothing faults: with the
host silent nothing changes, and a byte of the host only joins the frame. A frame is whole when its
operand buffer has the length of R103; for INGEST that is 8 bytes and, unless the length is over the
limit, the message. That waiting is a step which changes nothing is the model's choice (log entry 4). -/
def Obligations.BlockWaitsForTheWholeFrame : Prop :=
  (∀ s : State, s.running → s.sequencer = [] → decodeFrame s.rx = .wait →
    (s.inbox = [] → step s = .next s) ∧
    (∀ b es, s.inbox = .byte b :: es → step s = .next { s with inbox := es, rx := s.rx ++ [b] })) ∧
  decodeFrame [] = .wait ∧
  (∀ (op : Byte) (n : Nat) (bs : List Byte),
    (op.toNat, n) ∈ [(0x01, 0), (0x03, 0), (0x04, 200), (0x05, 800), (0x06, 8), (0x07, 8), (0x08, 1),
      (0x09, 1), (0x0A, 32), (0x0B, 32)] →
    (decodeFrame (op :: bs) = .wait ↔ bs.length < n)) ∧
  (∀ bs : List Byte, decodeFrame (0x02 :: bs) = .wait ↔
    bs.length < 8 ∨ (le64 (bs.take 8) ≤ Config.maxMessageBytes ∧
      bs.length < 8 + (le64 (bs.take 8)).toNat))

/-- R101, R108: the host sends the bytes of a command's frame, and nothing else happens until the last
has arrived; then the next step runs exactly that command and leaves the frame decoder empty. -/
def Obligations.HostBytesRunTheCommand : Prop :=
  ∀ (s : State) (i : Instr) (op : Byte) (operand : List Byte) (es : List HostEvent),
    s.inReset = false → s.halted = false → s.sequencer = [] → s.rx = [] → i.wf = true →
    encode i = .frame (op :: operand) →
    s.inbox = (op :: operand).map .byte ++ es → es.head? ≠ some .assertReset →
    runSteps (operand.length + 1) s = { s with inbox := es, rx := op :: operand } ∧
    step { s with inbox := es, rx := op :: operand } =
      exec i { s with inbox := es, rx := [], operand := Memory.ofBytes operand }

/-! ## Reset, faults and invariants -/

/-- R350: what power-on reset leaves, and that asserting reset at any time, whatever the block was
doing, puts it there: a frame or command in progress is gone and gives no response. -/
def Obligations.PowerOnResetAtAnyTime : Prop :=
  (∀ x y, State.reset.S.get x y = 0) ∧ State.reset.status = 0 ∧ State.reset.rx = [] ∧
  State.reset.sequencer = [] ∧ State.reset.operand = [] ∧ State.reset.halted = false ∧
  (∀ (s : State) es, s.inbox = .assertReset :: es →
    ∃ t, step s = .next t ∧ (∀ x y, t.S.get x y = 0) ∧ t.status = 0 ∧ t.rx = [] ∧
      t.sequencer = [] ∧ t.operand = [] ∧ t.halted = false ∧ t.tx = s.tx ∧ t.inReset = true)

/-- R353: bytes that arrive during reset are discarded; when reset ends the block waits for its first
frame with nothing changed. -/
def Obligations.BytesDuringResetAreDiscarded : Prop :=
  ∀ (s : State) es, s.inReset = true →
    (∀ b, s.inbox = .byte b :: es → step s = .next { s with inbox := es }) ∧
    (s.inbox = .releaseReset :: es → step s = .next { s with inbox := es, inReset := false })

/-- R32, R37, R350: the state after reset meets the invariants of the two statements below. -/
def Obligations.ResetIsGood : Prop := Good State.reset ∧ FrameState State.reset

/-- R32, R37, R310, R314: every step keeps STATUS legal (reserved bits 0, CAUSE 0 exactly while FAULT is
0, INFO as the cause gives it), the buffers in canonical form and the round counter in range. -/
def Obligations.StepKeepsGood : Prop :=
  ∀ s t : State, Good s → step s = .next t → Good t

/-- R310, R315, R112, V63: no frame raises INDEX_RANGE, ABSORB_LENGTH or INTERNAL_ASSERT, and no frame
leaves a micro-op word in the sequencer. -/
def Obligations.FramesNeverRaiseInternalCauses : Prop :=
  ∀ s t : State, FrameState s → step s = .next t → FrameState t

/-- R311: once FAULT is 1, no command runs and every byte is discarded, for any number of steps in which
the host does not assert reset: `S`, STATUS, the delivered responses and the arrived bytes keep their
values. Power-on reset clears the latch. -/
def Obligations.HaltedBlockRunsNothingUntilReset : Prop :=
  (∀ (n : Nat) (s : State), s.halted = true → HostEvent.assertReset ∉ s.inbox →
    (runSteps n s).S = s.S ∧ (runSteps n s).status = s.status ∧ (runSteps n s).tx = s.tx ∧
    (runSteps n s).rx = s.rx ∧ (runSteps n s).halted = true) ∧
  (∀ (s : State) es, s.halted = true → s.inbox = .assertReset :: es →
    ∃ t, step s = .next t ∧ t.status = 0 ∧ t.halted = false)

/-- R312, R311, R32, R310: fault entry sets FAULT, CAUSE and INFO, and does nothing else but end the
command: `S`, the transient state and the responses are as before, the operands are gone, nothing is
saved, and the block is halted. That the arrived bytes and the pending words are gone is DEDUCED from
R311 (log entry 20), and that the response buffer is emptied is the model's choice (log entry 11). As a
number STATUS is then INFO * 256 + CAUSE * 16 + 1, with the cause codes of R310, on a state whose
reserved bits are 0; and its fields are the bits that R32 gives. An instruction either completes with
STATUS as it was, or is fault entry and nothing else. -/
def Obligations.FaultEntryIsAllOrNothing : Prop :=
  (∀ (s : State) (cause : Cause) (info : Byte),
    Faulted s (s.raise ⟨cause, info⟩) cause info ∧ (s.raise ⟨cause, info⟩).halted = true) ∧
  (∀ (s : State) (cause : Cause) (info : Byte), s.status.toNat / 2 % 8 = 0 →
    ∃ code, (cause, code) ∈ [(Cause.illegalCommand, 1), (.indexRange, 2), (.absorbLength, 3),
        (.digitRange, 4), (.redInput, 5), (.laneRange, 6), (.internalAssert, 7), (.msgTooLong, 8)] ∧
      (s.raise ⟨cause, info⟩).status.toNat = info.toNat * 256 + code * 16 + 1) ∧
  (∀ st : BitVec 16, faultBit st = decide (st.toNat % 2 = 1) ∧
    (reservedField st).toNat = st.toNat / 2 % 8 ∧ (causeField st).toNat = st.toNat / 16 % 16 ∧
    (infoField st).toNat = st.toNat / 256) ∧
  (∀ (i : Instr) (s t : State), exec i s = .next t →
    t.status = s.status ∨
      ∃ cause info, Faulted s t cause info ∧ t.halted = true ∧ t.S = s.S ∧ t.tx = s.tx)

/-- The model never stops: every instruction and every step answer a next state. It rests on two of the
model's choices: a fault of R311 and R312 is a next state, with STATUS latched (log entry 23), and
waiting is a step, where R108 says that the block then has none (log entry 4). -/
def Obligations.MachineNeverStops : Prop :=
  (∀ (i : Instr) (s : State), ∃ t, exec i s = .next t) ∧ ∀ s : State, ∃ t, step s = .next t

/-- R31: only NEW and INGEST (and the micro-op ABSORB that INGEST issues) write `S`. -/
def Obligations.OnlyHashCommandsWriteS : Prop :=
  ∀ (i : Instr) (s t : State), exec i s = .next t → i ≠ .new → (∀ len msg, i ≠ .ingest len msg) →
    i ≠ .absorb → t.S = s.S

/-- R31: the responses and faults of PERMUTE_BIN, PERMUTE_RED and the codec commands do not depend on
`S`, nor on anything but their own operands. -/
def Obligations.StandaloneCommandsIgnoreS : Prop :=
  ∀ (i : Instr) (s₁ s₂ t₁ t₂ : State),
    ((∃ g, i = .permuteBin g) ∨ (∃ g, i = .permuteRed g) ∨ (∃ w, i = .enc13 w) ∨ (∃ w, i = .enc9 w) ∨
      (∃ d, i = .dec13d d) ∨ (∃ d, i = .dec9d d) ∨ (∃ n, i = .dec13l n) ∨ (∃ n, i = .dec9l n)) →
    s₁.tx = s₂.tx → s₁.status = s₂.status → exec i s₁ = .next t₁ → exec i s₂ = .next t₂ →
    t₁.tx = t₂.tx ∧ t₁.status = t₂.status

/-- R35: the transient state is not observable: two states between commands that differ in it alone step
to states that differ in it alone. -/
def Obligations.TransientStateIsNotObservable : Prop :=
  ∀ (s : State) (w : Work), s.sequencer = [] →
    ∃ t v, step s = .next t ∧ step { s with work := w } = .next { t with work := v }

/-! ## Hash controller and sponge -/

/-- R281: the frame `01` is NEW; NEW zeroes every lane of `S`, does not clear STATUS, and has an empty
response. -/
def Obligations.NewZeroesS : Prop :=
  (∀ rest, decodeFrame (0x01 :: rest) = .command .new [] rest) ∧
  ∀ s : State, ∃ t, exec .new s = .next t ∧ (∀ x y, t.S.get x y = 0) ∧ t.status = s.status ∧
    t = { s with S := t.S, response := [], tx := s.tx ++ [[]] }

/-- R282, R284: INGEST of a message within the limit pads it, absorbs it into the current `S`, and has
an empty response; nothing else changes but the registers of R35 that the step writes. -/
def Obligations.IngestAbsorbsThePaddedMessage : Prop :=
  ∀ (len : BitVec 64) (msg : List Byte) (s : State), msg.length = len.toNat →
    len ≤ Config.maxMessageBytes →
    ∃ t, exec (.ingest len msg) s = .next t ∧ t.S = absorb s.S (padMessage msg) ∧
      t = { s with S := t.S, response := [], tx := s.tx ++ [[]], work := { s.work with
        A := t.work.A, c := t.work.c, B := t.work.B, rnd := t.work.rnd, P := padMessage msg, k := t.work.k } }

/-- R282, R313: in a build with any limit, a length field over it raises MSG_TOO_LONG as soon as the
length field has arrived, whatever bytes follow, with `S` unchanged; the block is the build whose limit
is `MaxMessageBytes`. -/
def Obligations.OverlongIngestRaisesMsgTooLong : Prop :=
  (∀ (limit len : BitVec 64) (msg : List Byte) (s : State), limit < len →
    ∃ t, ingestWith limit len msg s = .next t ∧ Faulted s t .msgTooLong 0) ∧
  (∀ (limit len : BitVec 64) (rest : List Byte), limit < len →
    decodeFrameWith limit (0x02 :: (leBytes64 len ++ rest)) =
      .command (.ingest len []) (leBytes64 len) rest) ∧
  (∀ (len : BitVec 64) (msg : List Byte) (s : State),
    exec (.ingest len msg) s = ingestWith Config.maxMessageBytes len msg s)

/-- R251, R253: the padding bytes of every message length at every rate, and the padded length. -/
def Obligations.PaddingRule : Prop :=
  (∀ n rate : Nat, 0 < rate → (padding n rate).length = rate - n % rate) ∧
  (∀ n rate : Nat, rate - n % rate = 1 → padding n rate = [0x81]) ∧
  (∀ n rate : Nat, 0 < rate → rate - n % rate ≠ 1 →
    (padding n rate)[0]? = some 0x01 ∧ (padding n rate)[rate - n % rate - 1]? = some 0x80 ∧
    ∀ j, 0 < j → j < rate - n % rate - 1 → (padding n rate)[j]? = some 0x00) ∧
  (∀ (m : List Byte) (rate : Nat), 0 < rate →
    (m ++ padding m.length rate).length = rate * (m.length / rate + 1)) ∧
  (∀ m : List Byte, padMessage m = m ++ padding m.length 136)

/-- R73, R254, R255: absorbing a block XORs its byte `k` into state byte `k` for the 136 rate bytes and
leaves the 64 capacity bytes, then runs one permutation; blocks are absorbed in order. -/
def Obligations.AbsorbIsBlockwise : Prop :=
  (∀ (a : Grid Lane) (b : List Byte) (k : Nat), b.length = 136 → k < 200 →
    stateByte (xorBlock a b) k = if k < 136 then stateByte a k ^^^ b.getD k 0 else stateByte a k) ∧
  (∀ a : Grid Lane, absorb a [] = a) ∧
  (∀ (a : Grid Lane) (b P : List Byte), b.length = 136 →
    absorb a (b ++ P) = absorb (keccakF (xorBlock a b)) P)

/-- R283: the frame `03` is FINALIZE; FINALIZE responds with the 32 state bytes 0..31 and changes
nothing else, the transient state included: no permutation runs. -/
def Obligations.FinalizeRespondsWithTheDigest : Prop :=
  (∀ rest, decodeFrame (0x03 :: rest) = .command .finalize [] rest) ∧
  ∀ s : State, ∃ t d, exec .finalize s = .next t ∧ OnlyResponse s t d s.work ∧
    d.length = 32 ∧ ∀ k, k < 32 → d[k]? = some (stateByte s.S k)

/-- R286: two FINALIZE commands with any number of instructions between them, none of which faults and
none of which is NEW, INGEST or the micro-op ABSORB that INGEST issues, return the same 32 bytes. -/
def Obligations.FinalizeIsIdempotent : Prop :=
  ∀ (is : List Instr) (s t u v : State), s.halted = false →
    (∀ i ∈ is, i ≠ .new ∧ (∀ len msg, i ≠ .ingest len msg) ∧ i ≠ .absorb) →
    exec .finalize s = .next t → Completes is t u → exec .finalize u = .next v →
    ∃ d, d.length = 32 ∧ t.tx = s.tx ++ [d] ∧ v.tx = u.tx ++ [d]

/-- R285: with `S` all zero, as reset and NEW leave it, FINALIZE responds with 32 zero bytes. -/
def Obligations.FinalizeOfZeroStateIsZero : Prop :=
  (∀ s : State, (∀ x y, s.S.get x y = 0) →
    ∃ t, exec .finalize s = .next t ∧ t.tx = s.tx ++ [List.replicate 32 0]) ∧
  (∀ x y, State.reset.S.get x y = 0) ∧
  (∀ s t : State, exec .new s = .next t → ∀ x y, t.S.get x y = 0)

/-- R287: NEW, INGEST m, FINALIZE respond with `SQUEEZE(ABSORB(zero, m ++ PAD(len m)))`, from any state
of `S`. -/
def Obligations.HashCommandsComputeKeccak256 : Prop :=
  ∀ (s : State) (len : BitVec 64) (m : List Byte), m.length = len.toNat →
    len ≤ Config.maxMessageBytes →
    ∃ t u v, exec .new s = .next t ∧ exec (.ingest len m) t = .next u ∧ exec .finalize u = .next v ∧
      v.tx = s.tx ++ [[], [], squeeze (absorb (Grid.fill 0) (m ++ padding m.length 136))] ∧
      v.status = s.status

/-- R284: two INGEST commands pad and absorb their own messages one after the other; they do not hash
the concatenation. -/
def Obligations.IngestIsNotIncremental : Prop :=
  ∀ (s : State) (len₁ len₂ : BitVec 64) (m₁ m₂ : List Byte), m₁.length = len₁.toNat →
    m₂.length = len₂.toNat → len₁ ≤ Config.maxMessageBytes → len₂ ≤ Config.maxMessageBytes →
    ∃ t u, exec (.ingest len₁ m₁) s = .next t ∧ exec (.ingest len₂ m₂) t = .next u ∧
      u.S = absorb (absorb s.S (m₁ ++ padding m₁.length 136)) (m₂ ++ padding m₂.length 136)

/-- R252: the micro-op PAD holds the padded message of the current INGEST operand in `P`. That it pads
the bytes from address 8 on of an operand buffer that is not an INGEST's is the model's choice (log
entry 10). -/
def Obligations.PadBuildsThePaddedMessage : Prop :=
  (∀ s : State, ∃ t, exec .pad s = .next t ∧
    OnlyWork s t { s.work with P := padMessage (messageOf s.operand) }) ∧
  (∀ (len : BitVec 64) (m : List Byte), messageOf (Memory.ofBytes (leBytes64 len ++ m)) = m)

/-- R254: the micro-op ABSORB absorbs a buffer of whole blocks into `S`; a buffer of another length
raises ABSORB_LENGTH before `S` changes. -/
def Obligations.AbsorbUpdatesSOrRaises : Prop :=
  ∀ s : State,
    (s.work.P.length % 136 = 0 → ∃ t, exec .absorb s = .next t ∧ t.S = absorb s.S s.work.P ∧
      t = { s with S := t.S, work := { s.work with
        A := t.work.A, c := t.work.c, B := t.work.B, rnd := t.work.rnd, k := t.work.k } }) ∧
    (s.work.P.length % 136 ≠ 0 → ∃ t, exec .absorb s = .next t ∧ Faulted s t .absorbLength 0)

/-- R256, R73: the micro-op SQUEEZE writes state bytes 0..31 to response addresses 0..31, and `S` is not
changed. That every other response address reads as before and that SQUEEZE on its own delivers nothing
is the model's choice (log entry 24). -/
def Obligations.SqueezeWritesTheDigest : Prop :=
  ∀ s : State, ∃ t, exec .squeeze s = .next t ∧
    (∀ k, k < 32 → t.response.read k = some (stateByte s.S k)) ∧
    (∀ addr, 32 ≤ addr → t.response.read addr = s.response.read addr) ∧
    t = { s with response := t.response }

/-- R282, R110: INGEST does to `S` what the sequencer's words PAD and ABSORB do, issued with INGEST's
operand buffer in place. -/
def Obligations.IngestIsPadThenAbsorb : Prop :=
  ∀ (len : BitVec 64) (msg : List Byte) (s : State), msg.length = len.toNat →
    len ≤ Config.maxMessageBytes → s.operand = Memory.ofBytes (leBytes64 len ++ msg) →
    ∃ t u, exec (.ingest len msg) s = .next t ∧ issueAll [0x010, 0x011] s = some u ∧
      t.S = u.S ∧ t.work = u.work ∧ t.status = u.status

/-! ## Binary engine -/

/-- R140, R143: THETA and CHI, lane by lane; nothing else changes but the registers of R35 that the step
writes. -/
def Obligations.ThetaMixesColumnsAndChiMixesRows : Prop :=
  (∀ (s : State) (col : Fin 5 → Lane),
    (∀ x, col x = s.work.A.get x 0 ^^^ s.work.A.get x 1 ^^^ s.work.A.get x 2 ^^^ s.work.A.get x 3 ^^^
      s.work.A.get x 4) →
    ∃ t, exec .theta s = .next t ∧
      OnlyWork s t { s.work with A := t.work.A, c := .binary (Row.ofFn col) } ∧
      ∀ x y, t.work.A.get x y = s.work.A.get x y ^^^ col (x - 1) ^^^ (col (x + 1)).rotateLeft 1) ∧
  (∀ s : State, ∃ t, exec .chi s = .next t ∧ OnlyWork s t { s.work with A := t.work.A } ∧
    ∀ x y, t.work.A.get x y =
      s.work.A.get x y ^^^ (~~~ s.work.A.get (x + 1) y &&& s.work.A.get (x + 2) y))

/-- R141, R142, R41: RHO rotates each lane by its offset of the ROM, whose 25 values are those of R41,
and PI moves lane `(x,y)` to `(y, 2x+3y)`; nothing else changes but the registers of R35 that the step
writes. -/
def Obligations.RhoRotatesAndPiRelocates : Prop :=
  rhoOffsets = ⟨⟨0, 1, 62, 28, 27⟩, ⟨36, 44, 6, 55, 20⟩, ⟨3, 10, 43, 25, 39⟩, ⟨41, 45, 15, 21, 8⟩,
    ⟨18, 2, 61, 56, 14⟩⟩ ∧
  ∀ s : State,
    (∃ t, exec .rho s = .next t ∧ OnlyWork s t { s.work with A := t.work.A } ∧
      ∀ x y, t.work.A.get x y = (s.work.A.get x y).rotateLeft (rhoOffsets.get x y)) ∧
    (∃ t, exec .pi s = .next t ∧
      OnlyWork s t { s.work with A := t.work.A, B := .binary t.work.A } ∧
      ∀ x y, t.work.A.get y (2 * x + 3 * y) = s.work.A.get x y)

/-- R144, R40, R112: IOTA XORs the round constant into lane (0,0) and passes the other lanes through;
the 24 round constants are those of R40; a round index of 24 or more raises INTERNAL_ASSERT. That the
round counter keeps its value is the model's choice (log entry 25). -/
def Obligations.IotaInjectsTheRoundConstant : Prop :=
  RC = [0x0000000000000001, 0x0000000000008082, 0x800000000000808A, 0x8000000080008000,
      0x000000000000808B, 0x0000000080000001, 0x8000000080008081, 0x8000000000008009] ++
    [0x000000000000008A, 0x0000000000000088, 0x0000000080008009, 0x000000008000000A,
      0x000000008000808B, 0x800000000000008B, 0x8000000000008089, 0x8000000000008003] ++
    [0x8000000000008002, 0x8000000000000080, 0x000000000000800A, 0x800000008000000A,
      0x8000000080008081, 0x8000000000008080, 0x0000000080000001, 0x8000000080008008] ∧
  ∀ (s : State) (rnd : BitVec 5),
    (rnd.toNat < 24 → ∃ t v, exec (.iota rnd) s = .next t ∧
      OnlyWork s t { s.work with A := t.work.A } ∧ RC[rnd.toNat]? = some v ∧
      ∀ x y, t.work.A.get x y =
        if x = 0 ∧ y = 0 then s.work.A.get 0 0 ^^^ v else s.work.A.get x y) ∧
    (24 ≤ rnd.toNat → ∃ t, exec (.iota rnd) s = .next t ∧ Faulted s t .internalAssert 0)

/-- R145, R112: ROUND does to the working grid what THETA, RHO, PI, CHI and IOTA do, issued in that
order; a round index of 24 or more raises INTERNAL_ASSERT. That the round counter keeps its value is the
model's choice (log entry 25). -/
def Obligations.RoundIsTheFiveSteps : Prop :=
  ∀ (s : State) (rnd : BitVec 5),
    (rnd.toNat < 24 → ∃ t, exec (.round rnd) s = .next t ∧
      OnlyWork s t { s.work with A := t.work.A, c := t.work.c, B := t.work.B } ∧
      issueAll [0x000, 0x001, 0x002, 0x003, uopWord 0x04 rnd] s = some t) ∧
    (24 ≤ rnd.toNat → ∃ t, exec (.round rnd) s = .next t ∧ Faulted s t .internalAssert 0)

/-- R150, R221: KECCAK_F is the ROUND words with `rnd = 0..23`, issued in that order, and KECCAK_F_RED
of a canonical grid is the ROUND_RED words. That the round counter keeps its value is the model's choice
(log entry 25). -/
def Obligations.KeccakFIsTwentyFourRoundWords : Prop :=
  (∀ s : State, ∃ t, issueAll (roundWords 0x05) s = some t ∧
    OnlyWork s t { s.work with A := t.work.A, c := t.work.c, B := t.work.B } ∧
    t.work.A = keccakF s.work.A) ∧
  (∀ s : State, (∀ x y, canonical 13 (s.work.Q.get x y) = true) →
    ∃ t, issueAll (roundWords 0x0E) s = some t ∧
      OnlyWork s t { s.work with Q := t.work.Q, c := t.work.c, B := t.work.B } ∧
      keccakFRed s.work.Q = some t.work.Q)

/-- R151, R105: PERMUTE_BIN responds with the 25 lanes of KECCAK_F of its operand, 8 little-endian bytes
each in lane-index order; `S` and STATUS are neither written nor used. -/
def Obligations.PermuteBinRespondsWithKeccakF : Prop :=
  ∀ (s : State) (g : Grid Lane), ∃ t bytes, exec (.permuteBin g) s = .next t ∧
    OnlyResponse s t bytes { s.work with
      A := t.work.A, c := t.work.c, B := t.work.B, rnd := t.work.rnd } ∧ bytes.length = 200 ∧
    ∀ x y, le64 (field (8 * laneIndex x y) 8 bytes) = (keccakF g).get x y

/-- R152: KECCAK_F is a bijection of the 1600-bit state, and so is every step. -/
def Obligations.KeccakFIsABijection : Prop :=
  Function.Bijective theta ∧ Function.Bijective rho ∧ Function.Bijective (relocate (α := Lane)) ∧
  Function.Bijective chi ∧ (∀ rnd, Function.Bijective fun a => iota a rnd) ∧
  Function.Bijective keccakF

/-- R154: the 64 bit positions as 64 elements: CHI and IOTA act element by element, THETA couples
element `i` with element `i − 1`, RHO moves elements within a lane, PI moves whole lanes. -/
def Obligations.StepsActOnBitElements : Prop :=
  ∀ (a : Grid Lane) (x y : Fin 5) (i : Nat), i < 64 →
    ((theta a).get x y).getLsbD i =
      ((a.get x y).getLsbD i ^^ ((columnParity a).get (x - 1)).getLsbD i ^^
        ((columnParity a).get (x + 1)).getLsbD ((i + 63) % 64)) ∧
    ((rho a).get x y).getLsbD ((i + rhoOffsets.get x y) % 64) = (a.get x y).getLsbD i ∧
    (relocate a).get y (2 * x + 3 * y) = a.get x y ∧
    ((chi a).get x y).getLsbD i =
      ((a.get x y).getLsbD i ^^ (!(a.get (x + 1) y).getLsbD i && (a.get (x + 2) y).getLsbD i)) ∧
    ∀ rnd, ((iota a rnd).get x y).getLsbD i =
      ((a.get x y).getLsbD i ^^ (decide (x = 0 ∧ y = 0) && (roundConstant rnd).getLsbD i))

/-! ## Codec -/

/-- R183, R184, R180: ENC13 and ENC9 respond with the 32 little-endian bytes of the sum of the word's
bits times powers of the base, and change nothing else. -/
def Obligations.EncodersRespondWithDigitSums : Prop :=
  ∀ (s : State) (w : Lane),
    (∃ t bytes, exec (.enc13 w) s = .next t ∧ OnlyResponse s t bytes s.work ∧ bytes.length = 32 ∧
      leNat bytes = ∑ i ∈ Finset.range 64, (w.getLsbD i).toNat * 13 ^ i) ∧
    (∃ t bytes, exec (.enc9 w) s = .next t ∧ OnlyResponse s t bytes s.work ∧ bytes.length = 32 ∧
      leNat bytes = ∑ i ∈ Finset.range 64, (w.getLsbD i).toNat * 9 ^ i)

/-- R185, R186, R43: DEC13D responds with the parity of a digit up to 12, DEC9D with the table's bit of
a digit up to 8; a larger value raises DIGIT_RANGE with that value as INFO. -/
def Obligations.DigitDecodersRespondOrRaise : Prop :=
  ∀ (s : State) (d : Byte),
    (d.toNat ≤ 12 → ∃ t, exec (.dec13d d) s = .next t ∧ OnlyResponse s t [d &&& 1] s.work) ∧
    (12 < d.toNat → ∃ t, exec (.dec13d d) s = .next t ∧ Faulted s t .digitRange d) ∧
    (d.toNat ≤ 8 → ∃ t b, exec (.dec9d d) s = .next t ∧ OnlyResponse s t [b] s.work ∧
      [0, 0, 1, 1, 0, 0, 1, 1, 0][d.toNat]? = some b) ∧
    (8 < d.toNat → ∃ t, exec (.dec9d d) s = .next t ∧ Faulted s t .digitRange d)

/-- R187, R188, R181: DEC13L and DEC9L respond with the word whose bit `i` is the decoded digit `i` of a
lane of at most 64 digits; a larger lane raises LANE_RANGE. -/
def Obligations.LaneDecodersRespondOrRaise : Prop :=
  ∀ (s : State) (n : RedOperand),
    (n.toNat < 13 ^ 64 → ∃ t bytes, exec (.dec13l n) s = .next t ∧ OnlyResponse s t bytes s.work ∧
      bytes.length = 8 ∧
      ∀ i, i < 64 → (le64 bytes).getLsbD i = decide (n.toNat / 13 ^ i % 13 % 2 = 1)) ∧
    (13 ^ 64 ≤ n.toNat → ∃ t, exec (.dec13l n) s = .next t ∧ Faulted s t .laneRange 0) ∧
    (n.toNat < 9 ^ 64 → ∃ t bytes, exec (.dec9l n) s = .next t ∧ OnlyResponse s t bytes s.work ∧
      bytes.length = 8 ∧
      ∀ i, i < 64 → (le64 bytes).getLsbD i = decide (n.toNat / 9 ^ i % 9 ∈ [2, 3, 6, 7])) ∧
    (9 ^ 64 ≤ n.toNat → ∃ t, exec (.dec9l n) s = .next t ∧ Faulted s t .laneRange 0)

/-- R189: the base-13 round trip, and what holds in its place for base 9. -/
def Obligations.CodecRoundTrips : Prop :=
  ∀ w : Lane, decLane13 (encLane 13 w) = w ∧ decLane9 (encLane 9 w) = 0 ∧
    decLane9 (2 * encLane 9 w) = w ∧ decLane9 (3 * encLane 9 w) = w

/-- R190, R191, R192: the theta parity law for any bits whose sum is at most 12, the chi law, and the
iota flip law. -/
def Obligations.DigitLaws : Prop :=
  (∀ bits : List Bool, (bits.map Bool.toNat).sum ≤ 12 →
    digitBit13 (bits.map Bool.toNat).sum = (bits.foldl xor false).toNat) ∧
  (∀ a b c : Bool, t9 (2 * a.toNat + b.toNat + 3 * c.toNat) = (a ^^ (!b && c)).toNat) ∧
  (∀ d : Nat, d ≤ 6 → t9 (d + 2) = 1 - t9 d)

/-- R182: a lane is canonical exactly when it is the encoding of one word, and base 13 decodes it to that
word. -/
def Obligations.CanonicalLanesAreEncodings : Prop :=
  (∀ n, canonical 13 n = true ↔ ∃! w, n = encLane 13 w) ∧
  (∀ n, canonical 9 n = true ↔ ∃! w, n = encLane 9 w) ∧
  (∀ n w, canonical 13 n = true → n = encLane 13 w → decLane13 n = w)

/-! ## Redundant engine -/

/-- R211, R215, R216: THETA13, PI9 and CHI9 in exact integers, lane by lane; nothing else changes but
the registers of R35 that the step writes. -/
def Obligations.RedundantStepsAreExactSums : Prop :=
  ∀ (s : State) (col : Fin 5 → Nat),
    (∀ x, col x = s.work.Q.get x 0 + s.work.Q.get x 1 + s.work.Q.get x 2 + s.work.Q.get x 3 +
      s.work.Q.get x 4) →
    (∃ t, exec .theta13 s = .next t ∧
      OnlyWork s t { s.work with Q := t.work.Q, c := .base13 (Row.ofFn col) } ∧
      ∀ x y, t.work.Q.get x y = s.work.Q.get x y + col (x - 1) + 13 * col (x + 1)) ∧
    (∃ t, exec .pi9 s = .next t ∧
      OnlyWork s t { s.work with Q := t.work.Q, B := .redundant t.work.Q } ∧
      ∀ x y, t.work.Q.get y (2 * x + 3 * y) = s.work.Q.get x y) ∧
    (∃ t, exec .chi9 s = .next t ∧ OnlyWork s t { s.work with Q := t.work.Q } ∧
      ∀ x y, t.work.Q.get x y =
        2 * s.work.Q.get x y + s.work.Q.get (x + 1) y + 3 * s.work.Q.get (x + 2) y)

/-- R217, R112: IOTA9 adds twice the base-9 encoding of the round constant to lane (0,0); a round index
of 24 or more raises INTERNAL_ASSERT. That the round counter keeps its value is the model's choice (log
entry 25). -/
def Obligations.Iota9AddsTwiceTheConstant : Prop :=
  ∀ (s : State) (rnd : BitVec 5),
    (rnd.toNat < 24 → ∃ t v, exec (.iota9 rnd) s = .next t ∧
      OnlyWork s t { s.work with Q := t.work.Q } ∧ RC[rnd.toNat]? = some v ∧
      ∀ x y, t.work.Q.get x y =
        if x = 0 ∧ y = 0 then
          s.work.Q.get 0 0 + 2 * ∑ i ∈ Finset.range 64, (v.getLsbD i).toNat * 9 ^ i
        else s.work.Q.get x y) ∧
    (24 ≤ rnd.toNat → ∃ t, exec (.iota9 rnd) s = .next t ∧ Faulted s t .internalAssert 0)

/-- R213, R214: RHO13TO9 of lanes of at most 65 digits gives lanes of 64 base-9 digits, each the parity
of a base-13 digit at the rotated position, digit 64 folded into bit 0. That a lane of more digits
raises INTERNAL_ASSERT is the model's choice where R214 says a model may check (log entry 9). -/
def Obligations.Rho13to9FoldsAndRotates : Prop :=
  ∀ s : State,
    ((∀ x y, s.work.Q.get x y < 13 ^ 65) → ∃ t, exec .rho13to9 s = .next t ∧
      OnlyWork s t { s.work with Q := t.work.Q } ∧
      ∀ x y, t.work.Q.get x y < 9 ^ 64 ∧
        ∀ i, i < 64 → t.work.Q.get x y / 9 ^ ((i + rhoOffsets.get x y) % 64) % 9 =
          if i = 0 then (s.work.Q.get x y % 13 + s.work.Q.get x y / 13 ^ 64 % 13) % 2
          else s.work.Q.get x y / 13 ^ i % 13 % 2) ∧
    ((∃ x y, 13 ^ 65 ≤ s.work.Q.get x y) →
      ∃ t, exec .rho13to9 s = .next t ∧ Faulted s t .internalAssert 0)

/-- R219: CONV9TO13 of lanes of at most 64 base-9 digits decodes each digit through the table and
re-encodes it in base 13, with no rotation. That a larger lane raises INTERNAL_ASSERT is the model's
choice where R219 says a model may check (log entry 9). -/
def Obligations.Conv9to13ReencodesDigits : Prop :=
  ∀ s : State,
    ((∀ x y, s.work.Q.get x y < 9 ^ 64) → ∃ t, exec .conv9to13 s = .next t ∧
      OnlyWork s t { s.work with Q := t.work.Q } ∧
      ∀ x y, t.work.Q.get x y = ∑ i ∈ Finset.range 64,
        (if s.work.Q.get x y / 9 ^ i % 9 ∈ [2, 3, 6, 7] then 1 else 0) * 13 ^ i) ∧
    ((∃ x y, 9 ^ 64 ≤ s.work.Q.get x y) →
      ∃ t, exec .conv9to13 s = .next t ∧ Faulted s t .internalAssert 0)

/-- R220, R210, R112: ROUND_RED does to the working grid what its six micro-ops do, issued in the order
of the round driver, wherever THETA13 leaves lanes of at most 65 digits; a round index of 24 or more
raises INTERNAL_ASSERT. That a lane of more digits raises INTERNAL_ASSERT is the model's choice where
R214 says a model may check (log entry 9). That the round counter keeps its value is the model's choice
(log entry 25). -/
def Obligations.RoundRedIsTheSixSteps : Prop :=
  ∀ (s : State) (rnd : BitVec 5),
    (rnd.toNat < 24 → (∀ x y, (theta13 s.work.Q).get x y < 13 ^ 65) →
      ∃ t, exec (.roundRed rnd) s = .next t ∧
        OnlyWork s t { s.work with Q := t.work.Q, c := t.work.c, B := t.work.B } ∧
        issueAll [0x008, 0x009, 0x00A, 0x00B, uopWord 0x0C rnd, 0x00D] s = some t) ∧
    (rnd.toNat < 24 → (∃ x y, 13 ^ 65 ≤ (theta13 s.work.Q).get x y) →
      ∃ t, exec (.roundRed rnd) s = .next t ∧ Faulted s t .internalAssert 0) ∧
    (24 ≤ rnd.toNat → ∃ t, exec (.roundRed rnd) s = .next t ∧ Faulted s t .internalAssert 0)

/-- R220, R223: ROUND_RED on the encoding of a binary grid completes and leaves the encoding of its
binary ROUND; nothing else changes but the registers of R35 that the step writes. That the round counter
keeps its value is the model's choice (log entry 25). -/
def Obligations.RoundRedIsRoundOfTheDecodedGrid : Prop :=
  ∀ (s : State) (rnd : BitVec 5) (w : Grid Lane), rnd.toNat < 24 →
    s.work.Q = w.map (encLane 13) →
    ∃ t, exec (.roundRed rnd) s = .next t ∧
      OnlyWork s t { s.work with Q := t.work.Q, c := t.work.c, B := t.work.B } ∧
      t.work.Q = (round w rnd.toNat).map (encLane 13)

/-- R212: the digit bounds of THETA13 on canonical lanes, that no digit of its sums carries, and that
the bounds are reached. -/
def Obligations.ThetaDigitBounds : Prop :=
  (∀ a : Grid RedLane, (∀ x y, canonical 13 (a.get x y) = true) →
    (∀ x, (columnSum a).get x < 13 ^ 64 ∧ ∀ i, i < 64 →
      digit 13 ((columnSum a).get x) i = digit 13 (a.get x 0) i + digit 13 (a.get x 1) i +
        digit 13 (a.get x 2) i + digit 13 (a.get x 3) i + digit 13 (a.get x 4) i ∧
      digit 13 ((columnSum a).get x) i ≤ 5) ∧
    (∀ x y, digit 13 ((theta13 a).get x y) 0 ≤ 6 ∧
      (∀ i, 1 ≤ i → i ≤ 63 → digit 13 ((theta13 a).get x y) i ≤ 11) ∧
      digit 13 ((theta13 a).get x y) 64 ≤ 5 ∧ (theta13 a).get x y < 13 ^ 65 ∧
      ∀ i, digit 13 ((theta13 a).get x y) i = digit 13 (a.get x y) i +
        digit 13 ((columnSum a).get (x - 1)) i +
        if i = 0 then 0 else digit 13 ((columnSum a).get (x + 1)) (i - 1))) ∧
  (∀ x y, digit 13 ((theta13 (Grid.fill (encLane 13 (BitVec.allOnes 64)))).get x y) 0 = 6 ∧
    (∀ i, 1 ≤ i → i ≤ 63 →
      digit 13 ((theta13 (Grid.fill (encLane 13 (BitVec.allOnes 64)))).get x y) i = 11) ∧
    digit 13 ((theta13 (Grid.fill (encLane 13 (BitVec.allOnes 64)))).get x y) 64 = 5)

/-- R218: the digit bounds of CHI9 and IOTA9 on canonical lanes, that every chi digit value occurs, that
8 occurs after iota, and that every lane fits 203 bits. -/
def Obligations.Base9DigitBounds : Prop :=
  (∀ (a : Grid RedLane) (rnd : Nat), (∀ x y, canonical 9 (a.get x y) = true) →
    (∀ x y, (chi9 a).get x y < 9 ^ 64 ∧ ∀ i, i < 64 → digit 9 ((chi9 a).get x y) i ≤ 6 ∧
      digit 9 ((chi9 a).get x y) i = 2 * digit 9 (a.get x y) i + digit 9 (a.get (x + 1) y) i +
        3 * digit 9 (a.get (x + 2) y) i) ∧
    (∀ x y, (iota9 (chi9 a) rnd).get x y < 9 ^ 64 ∧
      ∀ i, i < 64 → digit 9 ((iota9 (chi9 a) rnd).get x y) i ≤ if x = 0 ∧ y = 0 then 8 else 6)) ∧
  (∀ v, v ≤ 6 → ∃ a : Grid RedLane, (∀ x y, canonical 9 (a.get x y) = true) ∧
    digit 9 ((chi9 a).get 0 0) 0 = v) ∧
  digit 9 ((iota9 (chi9 (Grid.fill (encLane 9 (BitVec.allOnes 64)))) 0).get 0 0) 0 = 8 ∧
  (9 : Nat) ^ 64 < 2 ^ 203

/-- R224: the widths that the redundant engine needs. -/
def Obligations.RedundantLaneWidths : Prop :=
  (∀ a : Grid RedLane, (∀ x y, canonical 13 (a.get x y) = true) →
    ∀ x y, a.get x y < 13 ^ 64 ∧ (theta13 a).get x y < 2 ^ 240) ∧
  (13 : Nat) ^ 64 < 2 ^ 237 ∧ (9 : Nat) ^ 64 < 2 ^ 203 ∧
  (∀ (a : Grid RedLane) (rnd : Nat), (∀ x y, canonical 9 (a.get x y) = true) →
    ∀ x y, (iota9 (chi9 a) rnd).get x y < 2 ^ 203)

/-- R223, R4: the redundant engine stage by stage against the binary one, and the whole permutations. -/
def Obligations.EnginesAreEquivalent : Prop :=
  (∀ (w v : Grid Lane) (rnd : Nat), rnd < 24 →
    (theta13 (w.map (encLane 13))).map fold13 = theta w ∧
    rho13to9 (theta13 (w.map (encLane 13))) = some ((rho (theta w)).map (encLane 9)) ∧
    relocate (v.map (encLane 9)) = (relocate v).map (encLane 9) ∧
    (chi9 (v.map (encLane 9))).map decLane9 = chi v ∧
    (iota9 (chi9 (v.map (encLane 9))) rnd).map decLane9 = iota (chi v) rnd ∧
    conv9to13 (iota9 (chi9 (v.map (encLane 9))) rnd) = some ((iota (chi v) rnd).map (encLane 13)) ∧
    roundRed (w.map (encLane 13)) rnd = some ((round w rnd).map (encLane 13))) ∧
  (∀ w : Grid Lane, keccakFRed (w.map (encLane 13)) = some ((keccakF w).map (encLane 13)))

/-- R222, R223: PERMUTE_RED of the encoding of a binary grid responds with the encoding of its KECCAK_F,
32 little-endian bytes a lane in lane-index order; `S` and STATUS are neither written nor used. -/
def Obligations.PermuteRedRespondsWithEncodedKeccakF : Prop :=
  ∀ (s : State) (g : Grid RedOperand) (w : Grid Lane), redLanes g = w.map (encLane 13) →
    ∃ t bytes, exec (.permuteRed g) s = .next t ∧
      OnlyResponse s t bytes { s.work with
        Q := t.work.Q, c := t.work.c, B := t.work.B, rnd := t.work.rnd } ∧ bytes.length = 800 ∧
      ∀ x y, leNat (field (32 * laneIndex x y) 32 bytes) = encLane 13 ((keccakF w).get x y)

/-- R222, R313: PERMUTE_RED of a grid with a lane that is not canonical in base 13 raises RED_INPUT with
the lowest such lane index, and there is no response. -/
def Obligations.PermuteRedRejectsNonCanonicalLanes : Prop :=
  ∀ (s : State) (g : Grid RedOperand) (x y : Fin 5), canonical 13 (g.get x y).toNat = false →
    (∀ x' y', laneIndex x' y' < laneIndex x y → canonical 13 (g.get x' y').toNat = true) →
    ∃ t, exec (.permuteRed g) s = .next t ∧
      Faulted s t .redInput (BitVec.ofNat 8 (laneIndex x y))
end

