-- ==== Sys2Proof/Laws/Codec.lean ====
section
/-! SUPPORT. Sums of digits and the digits of sums: a sum of digits below the base never carries, and a
number below `B^n` is the sum of its `n` digits. -/

namespace Sys2Proof.Machine

/-! ## Sums -/

theorem sumBelow_eq_sum (f : Nat → Nat) (n : Nat) : sumBelow f n = ∑ i ∈ Finset.range n, f i := by
  induction n with
  | zero => rfl
  | succ n ih => rw [sumBelow, ih, Finset.sum_range_succ]

theorem sumBelow_congr {f g : Nat → Nat} {n : Nat} (h : ∀ i, i < n → f i = g i) :
    sumBelow f n = sumBelow g n := by
  induction n with
  | zero => rfl
  | succ n ih => rw [sumBelow, sumBelow, ih fun i hi => h i (by omega), h n (by omega)]

theorem sumBelow_add (f g : Nat → Nat) (n : Nat) :
    sumBelow (fun i => f i + g i) n = sumBelow f n + sumBelow g n := by
  induction n with
  | zero => rfl
  | succ n ih => simp only [sumBelow, ih]; omega

theorem sumBelow_mul (k : Nat) (f : Nat → Nat) (n : Nat) :
    sumBelow (fun i => k * f i) n = k * sumBelow f n := by
  induction n with
  | zero => simp [sumBelow]
  | succ n ih => simp only [sumBelow, ih]; ring

@[simp] theorem sumBelow_zero (n : Nat) : sumBelow (fun _ => 0) n = 0 := by
  induction n with
  | zero => rfl
  | succ n ih => simp [sumBelow, ih]

/-! ## Digits -/

theorem digit_lt {B : Nat} (hB : 0 < B) (n i : Nat) : digit B n i < B := Nat.mod_lt _ hB

/-- A sum of `n` digits below the base is below `B^n`. -/
theorem digitSum_lt {B : Nat} (f : Nat → Nat) (n : Nat) (h : ∀ i, i < n → f i < B) :
    sumBelow (fun i => B ^ i * f i) n < B ^ n := by
  induction n with
  | zero => simp [sumBelow]
  | succ n ih =>
    have ih := ih fun i hi => h i (by omega)
    have hn := h n (by omega)
    have : B ^ n * (f n + 1) ≤ B ^ n * B := Nat.mul_le_mul_left _ hn
    simp only [sumBelow, pow_succ]
    nlinarith

/-- The digits of a sum of digits below the base are those digits: nothing carries. -/
theorem digit_digitSum {B : Nat} (hB : 1 < B) (f : Nat → Nat) (n : Nat) (h : ∀ i, i < n → f i < B)
    (j : Nat) : digit B (sumBelow (fun i => B ^ i * f i) n) j = if j < n then f j else 0 := by
  induction n with
  | zero => simp [sumBelow, digit]
  | succ n ih =>
    have ih := ih fun i hi => h i (by omega)
    have hlt := digitSum_lt f n fun i hi => h i (by omega)
    have hfn := h n (by omega)
    have hpos : ∀ k, 0 < B ^ k := fun k => Nat.pow_pos (by omega)
    simp only [sumBelow, digit] at ih ⊢
    rcases lt_trichotomy j n with hj | rfl | hj
    · obtain ⟨d, rfl⟩ : ∃ d, n = j + (d + 1) := ⟨n - j - 1, by omega⟩
      have e : B ^ (j + (d + 1)) * f (j + (d + 1)) = B ^ j * (f (j + (d + 1)) * B ^ d * B) := by ring
      rw [e, Nat.add_mul_div_left _ _ (hpos j), Nat.add_mul_mod_self_right, ih]
      simp [show j < j + (d + 1) + 1 by omega]
    · rw [Nat.add_mul_div_left _ _ (hpos j), Nat.div_eq_of_lt hlt, Nat.zero_add, Nat.mod_eq_of_lt hfn]
      simp
    · have hbig : sumBelow (fun i => B ^ i * f i) n + B ^ n * f n < B ^ j := by
        have := digitSum_lt f (n + 1) h
        exact lt_of_lt_of_le this (Nat.pow_le_pow_right (by omega) (by omega))
      rw [Nat.div_eq_of_lt hbig]
      simp [show ¬ j < n + 1 by omega]

/-- A number below `B^n` is the sum of its `n` digits. -/
theorem digitSum_digit (B n k : Nat) (h : n < B ^ k) :
    sumBelow (fun i => B ^ i * digit B n i) k = n := by
  have key : ∀ k, sumBelow (fun i => B ^ i * digit B n i) k = n % B ^ k := by
    intro k
    induction k with
    | zero => simp [sumBelow, Nat.mod_one]
    | succ k ih =>
      rw [sumBelow, ih, digit, pow_succ, Nat.mod_mul]
  rw [key, Nat.mod_eq_of_lt h]

/-- Two numbers below `B^k` with the same digits are equal. -/
theorem eq_of_digits {B : Nat} {m n k : Nat} (hm : m < B ^ k) (hn : n < B ^ k)
    (h : ∀ i, i < k → digit B m i = digit B n i) : m = n := by
  rw [← digitSum_digit B m k hm, ← digitSum_digit B n k hn]
  exact sumBelow_congr fun i hi => by rw [h i hi]

/-! ## Words and their encodings -/

theorem bitNat_le_one (w : Lane) (i : Nat) : bitNat w i ≤ 1 := by
  unfold bitNat; cases w.getLsbD i <;> simp

theorem encLane_lt {B : Nat} (hB : 1 < B) (w : Lane) : encLane B w < B ^ 64 :=
  digitSum_lt _ _ fun i _ => by have := bitNat_le_one w i; omega

/-- Digit `i` of `ENC_B(w)` is bit `i` of `w` (42_digit_codec.md R180). -/
theorem digit_encLane {B : Nat} (hB : 1 < B) (w : Lane) (i : Nat) :
    digit B (encLane B w) i = if i < 64 then bitNat w i else 0 :=
  digit_digitSum hB _ _ (fun i _ => by have := bitNat_le_one w i; omega) i

/-- A word is its own base-2 encoding. -/
theorem encLane_two (w : Lane) : encLane 2 w = w.toNat := by
  refine eq_of_digits (B := 2) (k := 64) (encLane_lt (by omega) w) w.isLt fun i hi => ?_
  rw [digit_encLane (by omega), if_pos hi, bitNat, digit, BitVec.getLsbD, Nat.testBit_eq_decide_div_mod_eq]
  rcases Nat.mod_two_eq_zero_or_one (w.toNat / 2 ^ i) with h | h <;> simp [h]

/-- Bit `i` of the word built from bits. -/
theorem getLsbD_wordOfBits (bit : Nat → Nat) (h : ∀ i, i < 64 → bit i ≤ 1) {i : Nat} (hi : i < 64) :
    (wordOfBits bit).getLsbD i = decide (bit i = 1) := by
  have hlt := digitSum_lt (B := 2) bit 64 fun i hi => by have := h i hi; omega
  have hd := digit_digitSum (B := 2) (by omega) bit 64 (fun i hi => by have := h i hi; omega) i
  rw [if_pos hi, digit] at hd
  rw [BitVec.getLsbD, wordOfBits, BitVec.toNat_ofNat, Config.laneBits, Nat.mod_eq_of_lt hlt,
    Nat.testBit_eq_decide_div_mod_eq, hd]

theorem bitNat_wordOfBits (bit : Nat → Nat) (h : ∀ i, i < 64 → bit i ≤ 1) {i : Nat} (hi : i < 64) :
    bitNat (wordOfBits bit) i = bit i := by
  have := h i hi
  rw [bitNat, getLsbD_wordOfBits bit h hi]
  rcases (by omega : bit i = 0 ∨ bit i = 1) with e | e <;> simp [e]

/-- The word whose bits are those of `w` is `w`. -/
theorem eq_wordOfBits {bit : Nat → Nat} {w : Lane} (h : ∀ i, i < 64 → bit i = bitNat w i) :
    wordOfBits bit = w := by
  have hb : ∀ i, i < 64 → bit i ≤ 1 := fun i hi => by rw [h i hi]; exact bitNat_le_one w i
  apply BitVec.eq_of_getLsbD_eq
  intro i hi
  rw [getLsbD_wordOfBits bit hb hi, h i hi, bitNat]
  cases w.getLsbD i <;> simp

/-- `ENC_B` is the digit sum of the word's bits. -/
theorem encLane_eq {B : Nat} {bit : Nat → Nat} {w : Lane} (h : ∀ i, i < 64 → bit i = bitNat w i) :
    sumBelow (fun i => B ^ i * bit i) 64 = encLane B w :=
  sumBelow_congr fun i hi => by rw [h i hi]

theorem t9_le_one (d : Nat) : t9 d ≤ 1 := by
  by_cases h : d < 9
  · interval_cases d <;> decide
  · rw [t9, List.getD_eq_default _ _ (by simp [T9]; omega)]; omega

theorem canonical_iff (B n : Nat) :
    canonical B n = true ↔ n < B ^ 64 ∧ ∀ i, i < 64 → digit B n i ≤ 1 := by
  change (decide (n < B ^ 64) && (List.range 64).all fun i => decide (digit B n i ≤ 1)) = true ↔ _
  simp only [Bool.and_eq_true, decide_eq_true_eq, List.all_eq_true, List.mem_range]

end Sys2Proof.Machine
end

