-- ==== Sys2Proof/Laws/Decode.lean ====
section
/-! SUPPORT. What the frame decoder can answer, one lemma per way a frame is taken. -/

namespace Sys2Proof

/-- A command of fixed length is taken exactly when its operand buffer is complete. -/
theorem takeFixed_cases (n : Nat) (bs : List Byte) (f : List Byte → Instr) :
    (bs.length < n ∧ takeFixed n bs f = .wait) ∨
    (n ≤ bs.length ∧ takeFixed n bs f = .command (f (bs.take n)) (bs.take n) (bs.drop n)) := by
  unfold takeFixed
  split
  · exact .inl ⟨‹_›, rfl⟩
  · exact .inr ⟨by omega, rfl⟩

/-- INGEST waits for its length field, ends there over the limit, and waits for its message otherwise. -/
theorem takeIngest_cases (limit : BitVec 64) (bs : List Byte) :
    (bs.length < 8 ∧ takeIngest limit bs = .wait) ∨
    (8 ≤ bs.length ∧ limit < le64 (bs.take 8) ∧
      takeIngest limit bs = .command (.ingest (le64 (bs.take 8)) []) (bs.take 8) (bs.drop 8)) ∨
    (8 ≤ bs.length ∧ ¬ limit < le64 (bs.take 8) ∧ bs.length < 8 + (le64 (bs.take 8)).toNat ∧
      takeIngest limit bs = .wait) ∨
    (8 + (le64 (bs.take 8)).toNat ≤ bs.length ∧ ¬ limit < le64 (bs.take 8) ∧
      takeIngest limit bs = .command (.ingest (le64 (bs.take 8)) (field 8 (le64 (bs.take 8)).toNat bs))
        (bs.take (8 + (le64 (bs.take 8)).toNat)) (bs.drop (8 + (le64 (bs.take 8)).toNat))) := by
  unfold takeIngest
  dsimp only
  split
  · exact .inl ⟨‹_›, rfl⟩
  · split
    · exact .inr (.inl ⟨by omega, ‹_›, rfl⟩)
    · split
      · exact .inr (.inr (.inl ⟨by omega, ‹_›, ‹_›, rfl⟩))
      · exact .inr (.inr (.inr ⟨by omega, ‹_›, rfl⟩))

/-- An opcode byte is known by its number. -/
theorem byte_eq_ofNat {op : Byte} {n : Nat} (h : op.toNat = n) : op = BitVec.ofNat 8 n := by
  rw [← h, BitVec.ofNat_toNat, BitVec.setWidth_eq]

/-- Only an unassigned byte is answered as illegal (R109). -/
theorem decodeFrameWith_illegal {limit : BitVec 64} {bs : List Byte} {op : Byte}
    (h : decodeFrameWith limit bs = .illegal op) :
    assignedOpcode op = false ∧ ∃ rest, bs = op :: rest := by
  have hf : ∀ n bs f, takeFixed n bs f ≠ .illegal op := fun n bs f e => by
    rcases takeFixed_cases n bs f with ⟨-, h⟩ | ⟨-, h⟩ <;> rw [h] at e <;> cases e
  have hi : ∀ bs, takeIngest limit bs ≠ .illegal op := fun bs e => by
    rcases takeIngest_cases limit bs with ⟨-, h⟩ | ⟨-, -, h⟩ | ⟨-, -, -, h⟩ | ⟨-, -, h⟩ <;> rw [h] at e <;>
      cases e
  cases bs with
  | nil => cases h
  | cons b bs =>
    by_cases ha : assignedOpcode b = true
    · have hb : 1 ≤ b.toNat ∧ b.toNat ≤ 11 := by simpa [assignedOpcode] using ha
      rw [decodeFrameWith] at h
      obtain ⟨h1, h2⟩ := hb
      generalize b.toNat = n at h h1 h2
      interval_cases n <;> first | exact absurd h (hf _ _ _) | exact absurd h (hi _)
    · have e : decodeFrameWith limit (b :: bs) = .illegal b := by
        have hb : ¬ (1 ≤ b.toNat ∧ b.toNat ≤ 11) := by simpa [assignedOpcode] using ha
        rw [decodeFrameWith]
        split <;> first | rfl | omega
      rw [e] at h
      cases h
      exact ⟨by simpa using ha, bs, rfl⟩

end Sys2Proof
end

