-- ==== Sys2Proof/Laws/Grid.lean ====
section
/-! SUPPORT. Reading and building grids: every grid is determined by its lanes, and each builder's
lanes are what it was given. -/

namespace Sys2Proof

variable {α β : Type}

@[simp] theorem Row.get_ofFn (f : Fin 5 → α) (x : Fin 5) : (Row.ofFn f).get x = f x := by
  fin_cases x <;> rfl

@[simp] theorem Grid.get_ofFn (f : Fin 5 → Fin 5 → α) (x y : Fin 5) : (Grid.ofFn f).get x y = f x y := by
  fin_cases y <;> simp [Grid.get, Grid.row, Grid.ofFn]

theorem Row.ext_get {r s : Row α} (h : ∀ x, r.get x = s.get x) : r = s := by
  cases r; cases s
  simpa [Row.get, Fin.forall_fin_succ] using h

/-- Two grids with the same lanes are equal. -/
theorem Grid.ext_get {g h : Grid α} (hl : ∀ x y, g.get x y = h.get x y) : g = h := by
  have row (y : Fin 5) : g.row y = h.row y := Row.ext_get fun x => hl x y
  cases g; cases h
  simpa [Grid.row, Fin.forall_fin_succ] using row

@[simp] theorem Grid.get_map (f : α → β) (g : Grid α) (x y : Fin 5) :
    (g.map f).get x y = f (g.get x y) := by simp [Grid.map]

@[simp] theorem Grid.get_fill (v : α) (x y : Fin 5) : (Grid.fill v).get x y = v := by simp [Grid.fill]

@[simp] theorem Grid.get_ofIndex (f : Nat → α) (x y : Fin 5) :
    (Grid.ofIndex f).get x y = f (laneIndex x y) := by simp [Grid.ofIndex]

theorem laneIndex_lt (x y : Fin 5) : laneIndex x y < 25 := by
  unfold laneIndex; omega

@[simp] theorem Grid.length_lanes (g : Grid α) : g.lanes.length = 25 := rfl

/-- Lane `i` of the list of lanes is the lane of lane index `i`. -/
theorem Grid.lanes_getElem (g : Grid α) (x y : Fin 5) :
    g.lanes[laneIndex x y]? = some (g.get x y) := by
  fin_cases y <;> fin_cases x <;> rfl

theorem Grid.mem_lanes (g : Grid α) (a : α) : a ∈ g.lanes ↔ ∃ x y, g.get x y = a := by
  simp only [Grid.lanes, Row.toList, Fin.exists_fin_succ, Grid.get, Grid.row, Row.get]
  simp [eq_comm (a := a)]
  tauto

theorem Grid.all_iff (p : α → Bool) (g : Grid α) :
    g.all p = true ↔ ∀ x y, p (g.get x y) = true := by
  simp only [Grid.all, List.all_eq_true, Grid.mem_lanes]
  exact ⟨fun h x y => h _ ⟨x, y, rfl⟩, by rintro h _ ⟨x, y, rfl⟩; exact h x y⟩

theorem Grid.lanes_map (f : α → β) (g : Grid α) : (g.map f).lanes = g.lanes.map f := rfl

end Sys2Proof

namespace Sys2Proof.Machine

@[simp] theorem get_relocate {α : Type} (a : Grid α) (x y : Fin 5) :
    (relocate a).get x y = a.get (x + 3 * y) x := by simp [relocate]

@[simp] theorem get_setOrigin {α : Type} (a : Grid α) (v : α) (x y : Fin 5) :
    (setOrigin a v).get x y = if x = 0 ∧ y = 0 then v else a.get x y := by
  fin_cases y <;> fin_cases x <;> rfl

end Sys2Proof.Machine
end

