-- ==== Sys2Proof/Laws/State.lean ====
section
/-! SUPPORT. What each shared operation does to each field of the state and of the datapath, so that no
later proof unfolds a record update. -/

namespace Sys2Proof.Machine

@[simp] theorem State.memWrite_S (s : State) (addr : Nat) (bs : List Byte) : (s.memWrite addr bs).S = s.S := rfl
@[simp] theorem State.memWrite_status (s : State) (addr : Nat) (bs : List Byte) : (s.memWrite addr bs).status = s.status := rfl
@[simp] theorem State.memWrite_work (s : State) (addr : Nat) (bs : List Byte) : (s.memWrite addr bs).work = s.work := rfl
@[simp] theorem State.memWrite_operand (s : State) (addr : Nat) (bs : List Byte) : (s.memWrite addr bs).operand = s.operand := rfl
@[simp] theorem State.memWrite_response (s : State) (addr : Nat) (bs : List Byte) : (s.memWrite addr bs).response = s.response.write addr bs := rfl
@[simp] theorem State.memWrite_sequencer (s : State) (addr : Nat) (bs : List Byte) : (s.memWrite addr bs).sequencer = s.sequencer := rfl
@[simp] theorem State.memWrite_rx (s : State) (addr : Nat) (bs : List Byte) : (s.memWrite addr bs).rx = s.rx := rfl
@[simp] theorem State.memWrite_tx (s : State) (addr : Nat) (bs : List Byte) : (s.memWrite addr bs).tx = s.tx := rfl
@[simp] theorem State.memWrite_inbox (s : State) (addr : Nat) (bs : List Byte) : (s.memWrite addr bs).inbox = s.inbox := rfl
@[simp] theorem State.memWrite_inReset (s : State) (addr : Nat) (bs : List Byte) : (s.memWrite addr bs).inReset = s.inReset := rfl

@[simp] theorem State.beginResponse_S (s : State) : (s.beginResponse).S = s.S := rfl
@[simp] theorem State.beginResponse_status (s : State) : (s.beginResponse).status = s.status := rfl
@[simp] theorem State.beginResponse_work (s : State) : (s.beginResponse).work = s.work := rfl
@[simp] theorem State.beginResponse_operand (s : State) : (s.beginResponse).operand = s.operand := rfl
@[simp] theorem State.beginResponse_response (s : State) : (s.beginResponse).response = [] := rfl
@[simp] theorem State.beginResponse_sequencer (s : State) : (s.beginResponse).sequencer = s.sequencer := rfl
@[simp] theorem State.beginResponse_rx (s : State) : (s.beginResponse).rx = s.rx := rfl
@[simp] theorem State.beginResponse_tx (s : State) : (s.beginResponse).tx = s.tx := rfl
@[simp] theorem State.beginResponse_inbox (s : State) : (s.beginResponse).inbox = s.inbox := rfl
@[simp] theorem State.beginResponse_inReset (s : State) : (s.beginResponse).inReset = s.inReset := rfl

@[simp] theorem State.deliver_S (s : State) : (s.deliver).S = s.S := rfl
@[simp] theorem State.deliver_status (s : State) : (s.deliver).status = s.status := rfl
@[simp] theorem State.deliver_work (s : State) : (s.deliver).work = s.work := rfl
@[simp] theorem State.deliver_operand (s : State) : (s.deliver).operand = s.operand := rfl
@[simp] theorem State.deliver_response (s : State) : (s.deliver).response = s.response := rfl
@[simp] theorem State.deliver_sequencer (s : State) : (s.deliver).sequencer = s.sequencer := rfl
@[simp] theorem State.deliver_rx (s : State) : (s.deliver).rx = s.rx := rfl
@[simp] theorem State.deliver_tx (s : State) : (s.deliver).tx = s.tx ++ [s.response.bytes] := rfl
@[simp] theorem State.deliver_inbox (s : State) : (s.deliver).inbox = s.inbox := rfl
@[simp] theorem State.deliver_inReset (s : State) : (s.deliver).inReset = s.inReset := rfl

@[simp] theorem State.squeezeStep_S (s : State) : (s.squeezeStep).S = s.S := rfl
@[simp] theorem State.squeezeStep_status (s : State) : (s.squeezeStep).status = s.status := rfl
@[simp] theorem State.squeezeStep_work (s : State) : (s.squeezeStep).work = s.work := rfl
@[simp] theorem State.squeezeStep_operand (s : State) : (s.squeezeStep).operand = s.operand := rfl
@[simp] theorem State.squeezeStep_response (s : State) : (s.squeezeStep).response = s.response.write 0 (squeeze s.S) := rfl
@[simp] theorem State.squeezeStep_sequencer (s : State) : (s.squeezeStep).sequencer = s.sequencer := rfl
@[simp] theorem State.squeezeStep_rx (s : State) : (s.squeezeStep).rx = s.rx := rfl
@[simp] theorem State.squeezeStep_tx (s : State) : (s.squeezeStep).tx = s.tx := rfl
@[simp] theorem State.squeezeStep_inbox (s : State) : (s.squeezeStep).inbox = s.inbox := rfl
@[simp] theorem State.squeezeStep_inReset (s : State) : (s.squeezeStep).inReset = s.inReset := rfl

@[simp] theorem State.raise_S (s : State) (r : Raise) : (s.raise r).S = s.S := rfl
@[simp] theorem State.raise_status (s : State) (r : Raise) : (s.raise r).status = latchFault r s.status := rfl
@[simp] theorem State.raise_work (s : State) (r : Raise) : (s.raise r).work = s.work := rfl
@[simp] theorem State.raise_operand (s : State) (r : Raise) : (s.raise r).operand = [] := rfl
@[simp] theorem State.raise_response (s : State) (r : Raise) : (s.raise r).response = [] := rfl
@[simp] theorem State.raise_sequencer (s : State) (r : Raise) : (s.raise r).sequencer = [] := rfl
@[simp] theorem State.raise_rx (s : State) (r : Raise) : (s.raise r).rx = [] := rfl
@[simp] theorem State.raise_tx (s : State) (r : Raise) : (s.raise r).tx = s.tx := rfl
@[simp] theorem State.raise_inbox (s : State) (r : Raise) : (s.raise r).inbox = s.inbox := rfl
@[simp] theorem State.raise_inReset (s : State) (r : Raise) : (s.raise r).inReset = s.inReset := rfl

@[simp] theorem State.takeFrame_S (s : State) (operand rest : List Byte) : (s.takeFrame operand rest).S = s.S := rfl
@[simp] theorem State.takeFrame_status (s : State) (operand rest : List Byte) : (s.takeFrame operand rest).status = s.status := rfl
@[simp] theorem State.takeFrame_work (s : State) (operand rest : List Byte) : (s.takeFrame operand rest).work = s.work := rfl
@[simp] theorem State.takeFrame_operand (s : State) (operand rest : List Byte) : (s.takeFrame operand rest).operand = Memory.ofBytes operand := rfl
@[simp] theorem State.takeFrame_response (s : State) (operand rest : List Byte) : (s.takeFrame operand rest).response = s.response := rfl
@[simp] theorem State.takeFrame_sequencer (s : State) (operand rest : List Byte) : (s.takeFrame operand rest).sequencer = s.sequencer := rfl
@[simp] theorem State.takeFrame_rx (s : State) (operand rest : List Byte) : (s.takeFrame operand rest).rx = rest := rfl
@[simp] theorem State.takeFrame_tx (s : State) (operand rest : List Byte) : (s.takeFrame operand rest).tx = s.tx := rfl
@[simp] theorem State.takeFrame_inbox (s : State) (operand rest : List Byte) : (s.takeFrame operand rest).inbox = s.inbox := rfl
@[simp] theorem State.takeFrame_inReset (s : State) (operand rest : List Byte) : (s.takeFrame operand rest).inReset = s.inReset := rfl

@[simp] theorem State.powerOnReset_S (s : State) : (s.powerOnReset).S = Grid.fill 0 := rfl
@[simp] theorem State.powerOnReset_status (s : State) : (s.powerOnReset).status = 0 := rfl
@[simp] theorem State.powerOnReset_work (s : State) : (s.powerOnReset).work = Work.reset := rfl
@[simp] theorem State.powerOnReset_operand (s : State) : (s.powerOnReset).operand = [] := rfl
@[simp] theorem State.powerOnReset_response (s : State) : (s.powerOnReset).response = [] := rfl
@[simp] theorem State.powerOnReset_sequencer (s : State) : (s.powerOnReset).sequencer = [] := rfl
@[simp] theorem State.powerOnReset_rx (s : State) : (s.powerOnReset).rx = [] := rfl
@[simp] theorem State.powerOnReset_tx (s : State) : (s.powerOnReset).tx = s.tx := rfl
@[simp] theorem State.powerOnReset_inbox (s : State) : (s.powerOnReset).inbox = s.inbox := rfl
@[simp] theorem State.powerOnReset_inReset (s : State) : (s.powerOnReset).inReset = true := rfl

@[simp] theorem Work.thetaStep_A (w : Work) : (w.thetaStep).A = theta w.A := rfl
@[simp] theorem Work.thetaStep_Q (w : Work) : (w.thetaStep).Q = w.Q := rfl
@[simp] theorem Work.thetaStep_c (w : Work) : (w.thetaStep).c = .binary (columnParity w.A) := rfl
@[simp] theorem Work.thetaStep_B (w : Work) : (w.thetaStep).B = w.B := rfl
@[simp] theorem Work.thetaStep_rnd (w : Work) : (w.thetaStep).rnd = w.rnd := rfl
@[simp] theorem Work.thetaStep_P (w : Work) : (w.thetaStep).P = w.P := rfl
@[simp] theorem Work.thetaStep_k (w : Work) : (w.thetaStep).k = w.k := rfl

@[simp] theorem Work.rhoStep_A (w : Work) : (w.rhoStep).A = rho w.A := rfl
@[simp] theorem Work.rhoStep_Q (w : Work) : (w.rhoStep).Q = w.Q := rfl
@[simp] theorem Work.rhoStep_c (w : Work) : (w.rhoStep).c = w.c := rfl
@[simp] theorem Work.rhoStep_B (w : Work) : (w.rhoStep).B = w.B := rfl
@[simp] theorem Work.rhoStep_rnd (w : Work) : (w.rhoStep).rnd = w.rnd := rfl
@[simp] theorem Work.rhoStep_P (w : Work) : (w.rhoStep).P = w.P := rfl
@[simp] theorem Work.rhoStep_k (w : Work) : (w.rhoStep).k = w.k := rfl

@[simp] theorem Work.piStep_A (w : Work) : (w.piStep).A = relocate w.A := rfl
@[simp] theorem Work.piStep_Q (w : Work) : (w.piStep).Q = w.Q := rfl
@[simp] theorem Work.piStep_c (w : Work) : (w.piStep).c = w.c := rfl
@[simp] theorem Work.piStep_B (w : Work) : (w.piStep).B = .binary (relocate w.A) := rfl
@[simp] theorem Work.piStep_rnd (w : Work) : (w.piStep).rnd = w.rnd := rfl
@[simp] theorem Work.piStep_P (w : Work) : (w.piStep).P = w.P := rfl
@[simp] theorem Work.piStep_k (w : Work) : (w.piStep).k = w.k := rfl

@[simp] theorem Work.chiStep_A (w : Work) : (w.chiStep).A = chi w.A := rfl
@[simp] theorem Work.chiStep_Q (w : Work) : (w.chiStep).Q = w.Q := rfl
@[simp] theorem Work.chiStep_c (w : Work) : (w.chiStep).c = w.c := rfl
@[simp] theorem Work.chiStep_B (w : Work) : (w.chiStep).B = w.B := rfl
@[simp] theorem Work.chiStep_rnd (w : Work) : (w.chiStep).rnd = w.rnd := rfl
@[simp] theorem Work.chiStep_P (w : Work) : (w.chiStep).P = w.P := rfl
@[simp] theorem Work.chiStep_k (w : Work) : (w.chiStep).k = w.k := rfl

@[simp] theorem Work.iotaStep_A (w : Work) (r : Nat) : (w.iotaStep r).A = iota w.A r := rfl
@[simp] theorem Work.iotaStep_Q (w : Work) (r : Nat) : (w.iotaStep r).Q = w.Q := rfl
@[simp] theorem Work.iotaStep_c (w : Work) (r : Nat) : (w.iotaStep r).c = w.c := rfl
@[simp] theorem Work.iotaStep_B (w : Work) (r : Nat) : (w.iotaStep r).B = w.B := rfl
@[simp] theorem Work.iotaStep_rnd (w : Work) (r : Nat) : (w.iotaStep r).rnd = w.rnd := rfl
@[simp] theorem Work.iotaStep_P (w : Work) (r : Nat) : (w.iotaStep r).P = w.P := rfl
@[simp] theorem Work.iotaStep_k (w : Work) (r : Nat) : (w.iotaStep r).k = w.k := rfl

@[simp] theorem Work.theta13Step_A (w : Work) : (w.theta13Step).A = w.A := rfl
@[simp] theorem Work.theta13Step_Q (w : Work) : (w.theta13Step).Q = theta13 w.Q := rfl
@[simp] theorem Work.theta13Step_c (w : Work) : (w.theta13Step).c = .base13 (columnSum w.Q) := rfl
@[simp] theorem Work.theta13Step_B (w : Work) : (w.theta13Step).B = w.B := rfl
@[simp] theorem Work.theta13Step_rnd (w : Work) : (w.theta13Step).rnd = w.rnd := rfl
@[simp] theorem Work.theta13Step_P (w : Work) : (w.theta13Step).P = w.P := rfl
@[simp] theorem Work.theta13Step_k (w : Work) : (w.theta13Step).k = w.k := rfl

@[simp] theorem Work.pi9Step_A (w : Work) : (w.pi9Step).A = w.A := rfl
@[simp] theorem Work.pi9Step_Q (w : Work) : (w.pi9Step).Q = relocate w.Q := rfl
@[simp] theorem Work.pi9Step_c (w : Work) : (w.pi9Step).c = w.c := rfl
@[simp] theorem Work.pi9Step_B (w : Work) : (w.pi9Step).B = .redundant (relocate w.Q) := rfl
@[simp] theorem Work.pi9Step_rnd (w : Work) : (w.pi9Step).rnd = w.rnd := rfl
@[simp] theorem Work.pi9Step_P (w : Work) : (w.pi9Step).P = w.P := rfl
@[simp] theorem Work.pi9Step_k (w : Work) : (w.pi9Step).k = w.k := rfl

@[simp] theorem Work.chi9Step_A (w : Work) : (w.chi9Step).A = w.A := rfl
@[simp] theorem Work.chi9Step_Q (w : Work) : (w.chi9Step).Q = chi9 w.Q := rfl
@[simp] theorem Work.chi9Step_c (w : Work) : (w.chi9Step).c = w.c := rfl
@[simp] theorem Work.chi9Step_B (w : Work) : (w.chi9Step).B = w.B := rfl
@[simp] theorem Work.chi9Step_rnd (w : Work) : (w.chi9Step).rnd = w.rnd := rfl
@[simp] theorem Work.chi9Step_P (w : Work) : (w.chi9Step).P = w.P := rfl
@[simp] theorem Work.chi9Step_k (w : Work) : (w.chi9Step).k = w.k := rfl

@[simp] theorem Work.iota9Step_A (w : Work) (r : Nat) : (w.iota9Step r).A = w.A := rfl
@[simp] theorem Work.iota9Step_Q (w : Work) (r : Nat) : (w.iota9Step r).Q = iota9 w.Q r := rfl
@[simp] theorem Work.iota9Step_c (w : Work) (r : Nat) : (w.iota9Step r).c = w.c := rfl
@[simp] theorem Work.iota9Step_B (w : Work) (r : Nat) : (w.iota9Step r).B = w.B := rfl
@[simp] theorem Work.iota9Step_rnd (w : Work) (r : Nat) : (w.iota9Step r).rnd = w.rnd := rfl
@[simp] theorem Work.iota9Step_P (w : Work) (r : Nat) : (w.iota9Step r).P = w.P := rfl
@[simp] theorem Work.iota9Step_k (w : Work) (r : Nat) : (w.iota9Step r).k = w.k := rfl

@[simp] theorem Work.padStep_A (w : Work) (m : List Byte) : (w.padStep m).A = w.A := rfl
@[simp] theorem Work.padStep_Q (w : Work) (m : List Byte) : (w.padStep m).Q = w.Q := rfl
@[simp] theorem Work.padStep_c (w : Work) (m : List Byte) : (w.padStep m).c = w.c := rfl
@[simp] theorem Work.padStep_B (w : Work) (m : List Byte) : (w.padStep m).B = w.B := rfl
@[simp] theorem Work.padStep_rnd (w : Work) (m : List Byte) : (w.padStep m).rnd = w.rnd := rfl
@[simp] theorem Work.padStep_P (w : Work) (m : List Byte) : (w.padStep m).P = padMessage m := rfl
@[simp] theorem Work.padStep_k (w : Work) (m : List Byte) : (w.padStep m).k = w.k := rfl

end Sys2Proof.Machine
end

