-- ==== Sys2Proof/Laws/Ops.lean ====
section
/-! SUPPORT. What the shared operations do: the buffers and their canonical form, the end of an
instruction, fault entry, a response, and one host event. -/

namespace Sys2Proof.Machine

/-! ## Buffers -/

theorem mem_cellsFrom {a : Nat} {bs : List Byte} {c : Host.Cell} (h : c ∈ cellsFrom a bs) :
    a ≤ c.1 ∧ c.1 < a + bs.length := by
  induction bs generalizing a with
  | nil => simp [cellsFrom] at h
  | cons b bs ih =>
    simp only [cellsFrom, List.mem_cons] at h
    rcases h with rfl | h
    · simp
    · have := ih h; simp; omega

theorem wf_cellsFrom (a : Nat) (bs : List Byte) : Memory.wf (cellsFrom a bs) := by
  induction bs generalizing a with
  | nil => simp [cellsFrom]
  | cons b bs ih =>
    simp only [Memory.wf, cellsFrom, List.pairwise_cons]
    exact ⟨fun c hc => by have := mem_cellsFrom hc; simp; omega, ih _⟩

theorem wf_nil : Memory.wf [] := List.Pairwise.nil

theorem wf_ofBytes (bs : List Byte) : (Memory.ofBytes bs).wf := wf_cellsFrom 0 bs

/-- `MemWrite` keeps the canonical form. -/
theorem wf_write {m : Memory} (h : m.wf) (a : Nat) (bs : List Byte) : (m.write a bs).wf := by
  simp only [Memory.wf, Memory.write, List.pairwise_append]
  refine ⟨⟨h.filter _, wf_cellsFrom a bs, ?_⟩, h.filter _, ?_⟩
  · intro c hc d hd
    have := mem_cellsFrom hd
    simp at hc; omega
  · intro c hc d hd
    rw [List.mem_append] at hc
    simp at hd
    rcases hc with hc | hc
    · simp at hc; omega
    · have := mem_cellsFrom hc; omega

theorem read_cellsFrom (a : Nat) (bs : List Byte) (addr : Nat) :
    Memory.read (cellsFrom a bs) addr = if a ≤ addr then bs[addr - a]? else none := by
  induction bs generalizing a with
  | nil => simp [cellsFrom, Memory.read]
  | cons b bs ih =>
    have ih := ih (a + 1)
    simp only [Memory.read] at ih ⊢
    by_cases h : a = addr
    · subst h; simp [cellsFrom]
    · simp only [cellsFrom, List.find?_cons]
      have hb : (a == addr) = false := by simpa using h
      simp only [hb]
      rw [ih]
      by_cases h2 : a + 1 ≤ addr
      · obtain ⟨n, rfl⟩ : ∃ n, addr = a + 1 + n := ⟨addr - (a + 1), by omega⟩
        have e : a + 1 + n - a = n + 1 := by omega
        simp [show a ≤ a + 1 + n by omega, e]
      · simp [h2, show ¬ a ≤ addr by omega]

/-- A buffer that holds a byte string reads as that string. -/
@[simp] theorem read_ofBytes (bs : List Byte) (addr : Nat) :
    (Memory.ofBytes bs).read addr = bs[addr]? := by
  simp [Memory.ofBytes, read_cellsFrom]

theorem find_filter_key (m : Memory) (p : Nat → Bool) (addr : Nat) :
    (m.filter fun c => p c.1).find? (fun c => c.1 == addr) =
      if p addr then m.find? (fun c => c.1 == addr) else none := by
  induction m with
  | nil => simp
  | cons c m ih =>
    by_cases hc : c.1 = addr
    · by_cases hp : p addr = true
      · simp [hc, hp]
      · have hn : ¬ p c.1 = true := by rwa [hc]
        rw [List.filter_cons_of_neg (by simpa using hn), ih, if_neg hp, if_neg hp]
    · have hb : (c.1 == addr) = false := by simpa using hc
      by_cases hp : p c.1 = true
      · simp [hp, hb, ih]
      · simp [hp, hb, ih]

/-- What a byte of a buffer reads as after `MemWrite`: the byte written, or what it read as before. -/
theorem read_write (m : Memory) (a : Nat) (bs : List Byte) (addr : Nat) :
    (m.write a bs).read addr =
      if a ≤ addr ∧ addr < a + bs.length then bs[addr - a]? else m.read addr := by
  have hc := read_cellsFrom a bs addr
  simp only [Memory.read] at hc
  have h1 := find_filter_key m (fun x => decide (x < a)) addr
  have h2 := find_filter_key m (fun x => decide (a + bs.length ≤ x)) addr
  simp only [Memory.read, Memory.write, List.find?_append, Option.map_or, h1, h2, hc]
  by_cases hlo : addr < a
  · have : ¬ a ≤ addr := by omega
    simp [hlo, this, show ¬ (a + bs.length ≤ addr) by omega]
  · have hge : a ≤ addr := by omega
    by_cases hhi : addr < a + bs.length
    · have hlt : addr - a < bs.length := by omega
      simp [hlo, hge, hhi, List.getElem?_eq_getElem hlt]
    · have hnone : bs[addr - a]? = none := List.getElem?_eq_none (by omega)
      simp [hlo, hge, hhi, hnone, show a + bs.length ≤ addr by omega]

@[simp] theorem write_nil_zero (bs : List Byte) : Memory.write [] 0 bs = Memory.ofBytes bs := by
  simp [Memory.write, Memory.ofBytes]

theorem map_cellsFrom (a : Nat) (bs : List Byte) : (cellsFrom a bs).map (·.2) = bs := by
  induction bs generalizing a with
  | nil => rfl
  | cons b bs ih => simp [cellsFrom, ih]

@[simp] theorem bytes_ofBytes (bs : List Byte) : (Memory.ofBytes bs).bytes = bs := map_cellsFrom 0 bs

theorem filter_cellsFrom (a n : Nat) (bs : List Byte) :
    ((cellsFrom a bs).filter fun c => decide (n ≤ c.1)).map (·.2) = bs.drop (n - a) := by
  induction bs generalizing a with
  | nil => simp [cellsFrom]
  | cons b bs ih =>
    by_cases h : n ≤ a
    · have e : n - a = 0 := by omega
      have e' : n - (a + 1) = 0 := by omega
      simp [cellsFrom, h, e, ih, e']
    · have e : n - a = (n - (a + 1)) + 1 := by omega
      simp [cellsFrom, h, ih, e]

/-- Reading a buffer from an address on. -/
@[simp] theorem readFrom_ofBytes (bs : List Byte) (n : Nat) :
    (Memory.ofBytes bs).readFrom n = bs.drop n := by
  simpa [Memory.readFrom, Memory.ofBytes] using filter_cellsFrom 0 n bs

/-! ## The end of an instruction -/

@[simp] theorem conclude_ok (s t : State) : s.conclude (.ok t) = .next t := rfl

@[simp] theorem conclude_error (s : State) (r : Raise) : s.conclude (.error r) = .next (s.raise r) := rfl

@[simp] theorem require_true (c : Cause) (i : Byte) : require true c i = .ok () := rfl

@[simp] theorem require_false (c : Cause) (i : Byte) : require false c i = .error ⟨c, i⟩ := rfl

/-- An instruction that has passed its check concludes with what follows. -/
theorem require_bind_pass {α : Type} {p : Bool} (h : p = true) (c : Cause) (i : Byte)
    (f : Unit → Except Raise α) : (require p c i >>= f) = f () := by subst h; rfl

/-- An instruction that fails its check raises. -/
theorem require_bind_fail {α : Type} {p : Bool} (h : p = false) (c : Cause) (i : Byte)
    (f : Unit → Except Raise α) : (require p c i >>= f) = .error ⟨c, i⟩ := by subst h; rfl

/-- However an instruction ends, it answers a next state: what it computed, or fault entry. -/
theorem conclude_cases (s : State) (e : Except Raise State) :
    (∃ t, e = .ok t ∧ s.conclude e = .next t) ∨ (∃ r, e = .error r ∧ s.conclude e = .next (s.raise r)) := by
  cases e with
  | ok t => exact .inl ⟨t, rfl, rfl⟩
  | error r => exact .inr ⟨r, rfl, rfl⟩

/-! ## Responses -/

theorem respond_eq (s : State) (bs : List Byte) :
    s.respond bs = { s with response := Memory.ofBytes bs, tx := s.tx ++ [bs] } := by
  simp [State.respond, State.deliver, State.memWrite, State.beginResponse]

@[simp] theorem respond_S (s : State) (bs : List Byte) : (s.respond bs).S = s.S := rfl
@[simp] theorem respond_status (s : State) (bs : List Byte) : (s.respond bs).status = s.status := rfl
@[simp] theorem respond_work (s : State) (bs : List Byte) : (s.respond bs).work = s.work := rfl
@[simp] theorem respond_operand (s : State) (bs : List Byte) : (s.respond bs).operand = s.operand := rfl
@[simp] theorem respond_sequencer (s : State) (bs : List Byte) :
    (s.respond bs).sequencer = s.sequencer := rfl
@[simp] theorem respond_rx (s : State) (bs : List Byte) : (s.respond bs).rx = s.rx := rfl
@[simp] theorem respond_inbox (s : State) (bs : List Byte) : (s.respond bs).inbox = s.inbox := rfl
@[simp] theorem respond_inReset (s : State) (bs : List Byte) : (s.respond bs).inReset = s.inReset := rfl
@[simp] theorem respond_response (s : State) (bs : List Byte) :
    (s.respond bs).response = Memory.ofBytes bs := by rw [respond_eq]
@[simp] theorem respond_tx (s : State) (bs : List Byte) : (s.respond bs).tx = s.tx ++ [bs] := by
  rw [respond_eq]

theorem delivered_respond (s : State) (bs : List Byte) : Delivered s (s.respond bs) bs := by
  simp [Delivered]

/-! ## Fault entry -/

@[simp] theorem faultBit_latchFault (r : Raise) (st : BitVec 16) : faultBit (latchFault r st) = true := by
  simp only [faultBit, latchFault, BitVec.getLsbD_append]; simp

@[simp] theorem causeField_latchFault (r : Raise) (st : BitVec 16) :
    causeField (latchFault r st) = r.cause.code := by
  ext i hi
  simp only [causeField, latchFault, BitVec.getElem_extractLsb', BitVec.getLsbD_append]
  interval_cases i <;> simp

@[simp] theorem infoField_latchFault (r : Raise) (st : BitVec 16) :
    infoField (latchFault r st) = r.info := by
  ext i hi
  simp only [infoField, latchFault, BitVec.getElem_extractLsb', BitVec.getLsbD_append]
  interval_cases i <;> simp

@[simp] theorem reservedField_latchFault (r : Raise) (st : BitVec 16) :
    reservedField (latchFault r st) = reservedField st := by
  ext i hi
  simp only [reservedField, latchFault, BitVec.getElem_extractLsb', BitVec.getLsbD_append]
  interval_cases i <;> simp

theorem faulted_raise (s : State) (r : Raise) : Faulted s (s.raise r) r.cause r.info := by
  simp [Faulted, State.raise]

/-! ## Host events -/

/-- Everything one host event can do. -/
theorem hostEvent_cases (s : State) :
    (s.inbox = [] ∧ s.hostEvent = s) ∨
    (∃ b es, s.inbox = .byte b :: es ∧ (s.halted || s.inReset) = true ∧
      s.hostEvent = { s with inbox := es }) ∨
    (∃ b es, s.inbox = .byte b :: es ∧ (s.halted || s.inReset) = false ∧
      s.hostEvent = { s with inbox := es, rx := s.rx ++ [b] }) ∨
    (∃ es, s.inbox = .assertReset :: es ∧ s.hostEvent = ({ s with inbox := es }).powerOnReset) ∨
    (∃ es, s.inbox = .releaseReset :: es ∧ s.hostEvent = { s with inbox := es, inReset := false }) ∨
    (∃ es, s.inbox = .pause :: es ∧ s.hostEvent = { s with inbox := es }) := by
  rcases hin : s.inbox with _ | ⟨_ | _ | _ | _, es⟩
  · exact .inl ⟨rfl, by simp [State.hostEvent, hin]⟩
  · rename_i b
    by_cases hq : (s.halted || s.inReset) = true
    · exact .inr (.inl ⟨b, es, rfl, hq, by simp only [State.hostEvent, hin, if_pos hq]⟩)
    · refine .inr (.inr (.inl ⟨b, es, rfl, by simpa using hq, ?_⟩))
      simp only [State.hostEvent, hin, if_neg hq]
  · exact .inr (.inr (.inr (.inl ⟨es, rfl, by simp [State.hostEvent, hin]⟩)))
  · exact .inr (.inr (.inr (.inr (.inl ⟨es, rfl, by simp [State.hostEvent, hin]⟩))))
  · exact .inr (.inr (.inr (.inr (.inr ⟨es, rfl, by simp [State.hostEvent, hin]⟩))))

end Sys2Proof.Machine
end

