-- ==== Sys2Proof/Laws/Work.lean ====
section
/-! SUPPORT. The datapath and the functions of a grid: what a command leaves in the working grids is
what the spec's functions give. -/

namespace Sys2Proof.Machine

/-! ## Binary engine -/

@[simp] theorem Work.roundStep_A (w : Work) (r : Nat) : (w.roundStep r).A = round w.A r := rfl
@[simp] theorem Work.roundStep_Q (w : Work) (r : Nat) : (w.roundStep r).Q = w.Q := rfl
@[simp] theorem Work.roundStep_rnd (w : Work) (r : Nat) : (w.roundStep r).rnd = w.rnd := rfl
@[simp] theorem Work.roundStep_P (w : Work) (r : Nat) : (w.roundStep r).P = w.P := rfl
@[simp] theorem Work.roundStep_k (w : Work) (r : Nat) : (w.roundStep r).k = w.k := rfl

@[simp] theorem Work.countedRound_A (w : Work) (r : Nat) : (w.countedRound r).A = round w.A r := rfl
@[simp] theorem Work.countedRound_Q (w : Work) (r : Nat) : (w.countedRound r).Q = w.Q := rfl
@[simp] theorem Work.countedRound_rnd (w : Work) (r : Nat) :
    (w.countedRound r).rnd = BitVec.ofNat 5 r := rfl
@[simp] theorem Work.countedRound_P (w : Work) (r : Nat) : (w.countedRound r).P = w.P := rfl
@[simp] theorem Work.countedRound_k (w : Work) (r : Nat) : (w.countedRound r).k = w.k := rfl

/-- A field that a loop body does not write is as it was before the loop. -/
theorem foldl_keeps {α β γ : Type} (f : α → β → α) (g : α → γ) (h : ∀ a b, g (f a b) = g a)
    (l : List β) (a : α) : g (l.foldl f a) = g a := by
  induction l generalizing a with
  | nil => rfl
  | cons b l ih => rw [List.foldl_cons, ih, h]

/-- A field that a loop body steps by `k` is stepped through the whole loop. -/
theorem foldl_steps {α β γ : Type} (f : α → β → α) (g : α → γ) (k : γ → β → γ)
    (h : ∀ a b, g (f a b) = k (g a) b) (l : List β) (a : α) : g (l.foldl f a) = l.foldl k (g a) := by
  induction l generalizing a with
  | nil => rfl
  | cons b l ih => rw [List.foldl_cons, List.foldl_cons, ih, h]

@[simp] theorem Work.keccakFStep_A (w : Work) : w.keccakFStep.A = keccakF w.A :=
  foldl_steps Work.countedRound Work.A round Work.countedRound_A _ _

@[simp] theorem Work.keccakFStep_Q (w : Work) : w.keccakFStep.Q = w.Q :=
  foldl_keeps Work.countedRound Work.Q Work.countedRound_Q _ _

@[simp] theorem Work.keccakFStep_P (w : Work) : w.keccakFStep.P = w.P :=
  foldl_keeps Work.countedRound Work.P Work.countedRound_P _ _

@[simp] theorem Work.keccakFStep_k (w : Work) : w.keccakFStep.k = w.k :=
  foldl_keeps Work.countedRound Work.k Work.countedRound_k _ _

/-- The counter has run to 23 (10_state.md R37). -/
@[simp] theorem Work.keccakFStep_rnd (w : Work) : w.keccakFStep.rnd = 23 := by
  have e : List.range Config.numRounds = List.range 23 ++ [23] := by decide
  rw [Work.keccakFStep, e, List.foldl_append]
  rfl

/-! ## Redundant engine -/

theorem Work.rho13to9Step_eq (w : Work) :
    w.rho13to9Step = (rho13to9 w.Q).map fun q => { w with Q := q } := rfl

theorem Work.conv9to13Step_eq (w : Work) :
    w.conv9to13Step = (conv9to13 w.Q).map fun q => { w with Q := q } := rfl

/-- ROUND_RED on the datapath is `roundRed` of the working grid; the other registers but `c` and `B`
are as they were. -/
theorem Work.roundRedStep_cases (w : Work) (r : Nat) :
    (roundRed w.Q r = none ∧ w.roundRedStep r = none) ∨
    ∃ v, w.roundRedStep r = some v ∧ roundRed w.Q r = some v.Q ∧
      v = { w with c := v.c, B := v.B, Q := v.Q } := by
  rw [Work.roundRedStep, roundRed, Work.rho13to9Step_eq, Work.theta13Step_Q]
  cases rho13to9 (theta13 w.Q) with
  | none => exact .inl ⟨rfl, rfl⟩
  | some q =>
    simp only [Option.map_some, Option.bind_some, Work.conv9to13Step_eq, Work.iota9Step_Q,
      Work.chi9Step_Q, Work.pi9Step_Q]
    cases conv9to13 (iota9 (chi9 (relocate q)) r) with
    | none => exact .inl ⟨rfl, rfl⟩
    | some q2 => exact .inr ⟨_, rfl, rfl, rfl⟩

theorem Work.countedRoundRed_cases (w : Work) (r : Nat) :
    (roundRed w.Q r = none ∧ w.countedRoundRed r = none) ∨
    ∃ v, w.countedRoundRed r = some v ∧ roundRed w.Q r = some v.Q ∧
      v = { w with c := v.c, B := v.B, Q := v.Q, rnd := BitVec.ofNat 5 r } :=
  Work.roundRedStep_cases { w with rnd := BitVec.ofNat 5 r } r

/-- A redundant permutation on the datapath, over any rounds below 24: `roundRed` of the working grid,
and no other register but `c`, `B` and the counter. -/
theorem Work.foldlM_countedRoundRed_cases (l : List Nat) (w : Work)
    (hl : ∀ r ∈ l, r < Config.numRounds) :
    (l.foldlM roundRed w.Q = none ∧ l.foldlM Work.countedRoundRed w = none) ∨
    ∃ v, l.foldlM Work.countedRoundRed w = some v ∧ l.foldlM roundRed w.Q = some v.Q ∧
      v = { w with c := v.c, B := v.B, Q := v.Q, rnd := v.rnd } ∧
      (w.rnd.toNat < Config.numRounds → v.rnd.toNat < Config.numRounds) := by
  induction l generalizing w with
  | nil => exact .inr ⟨w, rfl, rfl, rfl, id⟩
  | cons r l ih =>
    simp only [List.foldlM_cons]
    rcases Work.countedRoundRed_cases w r with ⟨h1, h2⟩ | ⟨v, h1, h2, h3⟩
    · exact .inl ⟨by rw [h1]; rfl, by rw [h2]; rfl⟩
    · have hr : r < 24 := hl r (by simp)
      have hv : v.rnd.toNat < Config.numRounds := by
        have : v.rnd = BitVec.ofNat 5 r := by rw [h3]
        rw [this, BitVec.toNat_ofNat, Config.numRounds]
        omega
      rw [h1, h2]
      rcases ih v (fun s hs => hl s (by simp [hs])) with ⟨i1, i2⟩ | ⟨u, i1, i2, i3, i4⟩
      · exact .inl ⟨i1, i2⟩
      · refine .inr ⟨u, i1, i2, ?_, fun _ => i4 hv⟩
        rw [h3] at i3
        exact i3

/-- KECCAK_F_RED on the datapath is `keccakFRed` of the working grid. -/
theorem Work.keccakFRedStep_cases (w : Work) :
    (keccakFRed w.Q = none ∧ w.keccakFRedStep = none) ∨
    ∃ v, w.keccakFRedStep = some v ∧ keccakFRed w.Q = some v.Q ∧
      v = { w with c := v.c, B := v.B, Q := v.Q, rnd := v.rnd } ∧
      (w.rnd.toNat < Config.numRounds → v.rnd.toNat < Config.numRounds) :=
  Work.foldlM_countedRoundRed_cases _ w fun r hr => by simpa using hr

/-! ## Sponge -/

@[simp] theorem Work.absorbBlockStep_A (w : Work) (k : Nat) :
    (w.absorbBlockStep k).A = absorbBlock w.P w.A k := by simp [Work.absorbBlockStep, absorbBlock]

@[simp] theorem Work.absorbBlockStep_P (w : Work) (k : Nat) : (w.absorbBlockStep k).P = w.P := by
  simp [Work.absorbBlockStep]

theorem Work.foldl_absorbBlockStep_A (l : List Nat) (w : Work) :
    (l.foldl Work.absorbBlockStep w).A = l.foldl (absorbBlock w.P) w.A := by
  induction l generalizing w with
  | nil => rfl
  | cons k l ih => rw [List.foldl_cons, List.foldl_cons, ih]; simp

theorem Work.foldl_absorbBlockStep_rnd (l : List Nat) (w : Work) (hw : w.rnd.toNat < Config.numRounds) :
    (l.foldl Work.absorbBlockStep w).rnd.toNat < Config.numRounds := by
  induction l generalizing w with
  | nil => exact hw
  | cons k l ih => exact ih _ (by simp only [Work.absorbBlockStep, Work.keccakFStep_rnd]; decide)

/-- ABSORB of a buffer that is not whole blocks raises ABSORB_LENGTH (R254). -/
theorem State.absorbStep_bad (s : State) (h : s.work.P.length % Config.rateBytes ≠ 0) :
    s.absorbStep = .error ⟨.absorbLength, 0⟩ := require_bind_fail (by simpa using h) _ _ _

/-- ABSORB of whole blocks: `S` becomes `absorb` of it, and nothing else but the datapath changes. -/
theorem State.absorbStep_ok (s : State) (h : s.work.P.length % Config.rateBytes = 0) :
    ∃ w, s.absorbStep = .ok { s with work := w, S := absorb s.S s.work.P } ∧
      (s.work.rnd.toNat < Config.numRounds → w.rnd.toNat < Config.numRounds) := by
  refine ⟨(List.range (s.work.P.length / Config.rateBytes)).foldl Work.absorbBlockStep
    { s.work with A := s.S }, ?_, fun hr => Work.foldl_absorbBlockStep_rnd _ _ hr⟩
  rw [State.absorbStep, require_bind_pass (by simpa using h)]
  simp only [Work.foldl_absorbBlockStep_A, absorb]
  rfl

/-- A padded message is whole blocks (R253). -/
theorem length_padding (n : Nat) : (padding n 136).length = 136 - n % 136 := by
  have := Nat.mod_lt n (by decide : 136 > 0)
  by_cases h : 136 - n % 136 = 1
  · simp [padding, h]
  · simp only [padding, if_neg h, List.cons_append, List.length_cons, List.length_append,
      List.length_replicate, List.length_nil]
    omega

theorem length_padMessage_mod (m : List Byte) : (padMessage m).length % Config.rateBytes = 0 := by
  simp only [padMessage, Config.rateBytes, List.length_append, length_padding]
  omega

end Sys2Proof.Machine
end

