-- ==== Sys2Proof/Laws/Exec.lean ====
section
/-! SUPPORT. Everything an instruction can do, said once: it completes, or it is fault entry with a cause
and an INFO that go together. One lemma per instruction, and the inversion of `exec`. -/

namespace Sys2Proof.Machine

/-- What holds of every completed instruction: STATUS, the operand buffer and the host's side are as
they were; the response buffer keeps its canonical form and the round counter its range. -/
structure Completed (s t : State) : Prop where
  status : t.status = s.status
  operand : t.operand = s.operand
  sequencer : t.sequencer = s.sequencer
  rx : t.rx = s.rx
  inbox : t.inbox = s.inbox
  inReset : t.inReset = s.inReset
  response : s.response.wf → t.response.wf
  counter : s.work.rnd.toNat < Config.numRounds → t.work.rnd.toNat < Config.numRounds

/-- The faults that an instruction can raise, with the INFO that goes with each (R310). -/
def Raise.fits (r : Raise) : Prop := infoFits r.cause.code r.info = true

/-- The two ways an instruction ends. -/
def Ends (s : State) (res : Result) : Prop :=
  (∃ t, res = .next t ∧ Completed s t) ∨ ∃ r : Raise, res = .next (s.raise r) ∧ r.fits

theorem Ends.completes {s t : State} {res : Result} (h : res = .next t) (hc : Completed s t) :
    Ends s res := .inl ⟨t, h, hc⟩

theorem Ends.raises {s : State} {res : Result} (r : Raise) (h : res = .next (s.raise r)) (hf : r.fits) :
    Ends s res := .inr ⟨r, h, hf⟩

theorem completed_work (s : State) (w : Work)
    (h : s.work.rnd.toNat < Config.numRounds → w.rnd.toNat < Config.numRounds) :
    Completed s { s with work := w } := ⟨rfl, rfl, rfl, rfl, rfl, rfl, id, h⟩

theorem completed_respond (s : State) (bs : List Byte) : Completed s (s.respond bs) :=
  ⟨rfl, rfl, rfl, rfl, rfl, rfl, fun _ => by simpa using wf_ofBytes bs, id⟩

theorem Completed.trans {s t u : State} (h : Completed s t) (k : Completed t u) : Completed s u :=
  ⟨k.status.trans h.status, k.operand.trans h.operand, k.sequencer.trans h.sequencer,
    k.rx.trans h.rx, k.inbox.trans h.inbox, k.inReset.trans h.inReset,
    fun x => k.response (h.response x), fun x => k.counter (h.counter x)⟩

/-! ## Checks -/

/-- An instruction with one domain check. -/
theorem conclude_require (s : State) {p : Bool} (c : Cause) (i : Byte) (f : Unit → Except Raise State) :
    s.conclude (require p c i >>= f) = if p then s.conclude (f ()) else .next (s.raise ⟨c, i⟩) := by
  cases p <;> rfl

/-- An instruction with one internal precondition. -/
theorem conclude_internally (s : State) {α : Type} (o : Option α) (f : α → Except Raise State) :
    s.conclude (internally o >>= f) =
      match o with
      | some a => s.conclude (f a)
      | none => .next (s.raise ⟨.internalAssert, 0⟩) := by
  cases o <;> rfl

theorem withRound_eq (s : State) (rnd : BitVec 5) (step : Nat → Work) :
    s.conclude (s.withRound rnd step) =
      if rnd.toNat < 24 then .next { s with work := step rnd.toNat }
      else .next (s.raise ⟨.internalAssert, 0⟩) := by
  rw [State.withRound, conclude_require]
  by_cases h : rnd.toNat < 24
  · rw [if_pos h, if_pos (decide_eq_true (show rnd.toNat < Config.numRounds from h))]; rfl
  · rw [if_neg h, if_neg (by rw [decide_eq_false (show ¬ rnd.toNat < Config.numRounds from h)]; simp)]

/-- The lowest offending lane: it is not canonical, it is in the list, and all before it are. -/
theorem firstNonCanonical_some {i k : Nat} {l : List RedLane} (h : firstNonCanonical i l = some k) :
    i ≤ k ∧ k < i + l.length ∧ (∃ n, l[k - i]? = some n ∧ canonical 13 n = false) ∧
      ∀ j n, j < k - i → l[j]? = some n → canonical 13 n = true := by
  induction l generalizing i with
  | nil => simp [firstNonCanonical] at h
  | cons a l ih =>
    rw [firstNonCanonical] at h
    by_cases ha : canonical 13 a = true
    · rw [if_pos ha] at h
      obtain ⟨h1, h2, h3, h4⟩ := ih h
      have e : k - i = (k - (i + 1)) + 1 := by omega
      refine ⟨by omega, by simp; omega, by rw [e]; simpa using h3, ?_⟩
      intro j n hj hn
      cases j with
      | zero => simp at hn; rw [← hn]; exact ha
      | succ j => exact h4 j n (by omega) (by simpa using hn)
    · rw [if_neg ha] at h
      have hk : i = k := Option.some.inj h
      subst hk
      refine ⟨Nat.le_refl _, by simp, ⟨a, by simp, by simpa using ha⟩, ?_⟩
      intro j n hj
      omega

theorem firstNonCanonical_none {i : Nat} {l : List RedLane} :
    firstNonCanonical i l = none ↔ ∀ n ∈ l, canonical 13 n = true := by
  induction l generalizing i with
  | nil => simp [firstNonCanonical]
  | cons a l ih =>
    rw [firstNonCanonical]
    by_cases ha : canonical 13 a = true
    · rw [if_pos ha, ih]; simp [ha]
    · rw [if_neg ha]; simp [ha]

/-- Every operand lane is canonical, or there is a lowest lane that is not. -/
theorem requireCanonical_cases (a : Grid RedLane) :
    (requireCanonical a = .ok () ∧ ∀ x y, canonical 13 (a.get x y) = true) ∨
    ∃ k, requireCanonical a = .error ⟨.redInput, BitVec.ofNat 8 k⟩ ∧ firstNonCanonical 0 a.lanes = some k ∧
      k < 25 := by
  unfold requireCanonical
  cases h : firstNonCanonical 0 a.lanes with
  | none =>
    refine .inl ⟨rfl, fun x y => ?_⟩
    exact firstNonCanonical_none.mp h _ ((a.mem_lanes _).mpr ⟨x, y, rfl⟩)
  | some k =>
    have := (firstNonCanonical_some h).2.1
    exact .inr ⟨k, rfl, rfl, by simpa using this⟩

/-! ## One lemma per instruction -/

theorem execTheta_ends (s : State) : Ends s (execTheta s) := .completes rfl (completed_work s _ id)
theorem execRho_ends (s : State) : Ends s (execRho s) := .completes rfl (completed_work s _ id)
theorem execPi_ends (s : State) : Ends s (execPi s) := .completes rfl (completed_work s _ id)
theorem execChi_ends (s : State) : Ends s (execChi s) := .completes rfl (completed_work s _ id)
theorem execTheta13_ends (s : State) : Ends s (execTheta13 s) := .completes rfl (completed_work s _ id)
theorem execPi9_ends (s : State) : Ends s (execPi9 s) := .completes rfl (completed_work s _ id)
theorem execChi9_ends (s : State) : Ends s (execChi9 s) := .completes rfl (completed_work s _ id)
theorem execPad_ends (s : State) : Ends s (execPad s) := .completes rfl (completed_work s _ id)

theorem withRound_ends (s : State) (rnd : BitVec 5) (step : Nat → Work)
    (h : ∀ r, (step r).rnd = s.work.rnd) : Ends s (s.conclude (s.withRound rnd step)) := by
  rw [withRound_eq]
  split
  · exact .completes rfl (completed_work s _ (by rw [h]; exact id))
  · exact .raises ⟨.internalAssert, 0⟩ rfl (by decide : infoFits _ _ = true)

theorem execIota_ends (rnd : BitVec 5) (s : State) : Ends s (execIota rnd s) :=
  withRound_ends s rnd _ fun _ => rfl

theorem execRound_ends (rnd : BitVec 5) (s : State) : Ends s (execRound rnd s) :=
  withRound_ends s rnd _ fun _ => rfl

theorem execIota9_ends (rnd : BitVec 5) (s : State) : Ends s (execIota9 rnd s) :=
  withRound_ends s rnd _ fun _ => rfl

theorem execRho13to9_ends (s : State) : Ends s (execRho13to9 s) := by
  rw [execRho13to9, conclude_internally, Work.rho13to9Step_eq]
  cases rho13to9 s.work.Q with
  | none => exact .raises ⟨.internalAssert, 0⟩ rfl (by decide : infoFits _ _ = true)
  | some q => exact .completes rfl (completed_work s _ id)

theorem execConv9to13_ends (s : State) : Ends s (execConv9to13 s) := by
  rw [execConv9to13, conclude_internally, Work.conv9to13Step_eq]
  cases conv9to13 s.work.Q with
  | none => exact .raises ⟨.internalAssert, 0⟩ rfl (by decide : infoFits _ _ = true)
  | some q => exact .completes rfl (completed_work s _ id)

theorem execRoundRed_ends (rnd : BitVec 5) (s : State) : Ends s (execRoundRed rnd s) := by
  rw [execRoundRed, conclude_require]
  split
  · rw [conclude_internally]
    rcases Work.roundRedStep_cases s.work rnd.toNat with ⟨-, h⟩ | ⟨v, h, -, hv⟩
    · rw [h]; exact .raises ⟨.internalAssert, 0⟩ rfl (by decide : infoFits _ _ = true)
    · rw [h]
      have hr : v.rnd = s.work.rnd := by rw [hv]
      exact .completes rfl (completed_work s v (by rw [hr]; exact id))
  · exact .raises ⟨.internalAssert, 0⟩ rfl (by decide : infoFits _ _ = true)

theorem execPermuteBin_ends (grid : Grid Lane) (s : State) : Ends s (execPermuteBin grid s) :=
  .completes rfl ((completed_work s _ fun _ => by
    rw [Work.keccakFStep_rnd]; decide).trans (completed_respond _ _))

/-- What PERMUTE_RED does: RED_INPUT, a violated internal precondition, or the response. -/
theorem execPermuteRed_cases (grid : Grid RedOperand) (s : State) :
    (∃ k, firstNonCanonical 0 (redLanes grid).lanes = some k ∧ k < 25 ∧
      execPermuteRed grid s = .next (s.raise ⟨.redInput, BitVec.ofNat 8 k⟩)) ∨
    ((∀ x y, canonical 13 ((redLanes grid).get x y) = true) ∧ keccakFRed (redLanes grid) = none ∧
      execPermuteRed grid s = .next (s.raise ⟨.internalAssert, 0⟩)) ∨
    ∃ w q, (∀ x y, canonical 13 ((redLanes grid).get x y) = true) ∧
      keccakFRed (redLanes grid) = some q ∧
      (s.work.rnd.toNat < Config.numRounds → w.rnd.toNat < Config.numRounds) ∧
      execPermuteRed grid s = .next (({ s with work := w }).respond (bytesOfGrid256 q)) := by
  unfold execPermuteRed
  rcases requireCanonical_cases (redLanes grid) with ⟨h, hc⟩ | ⟨k, h, hk, hlt⟩
  · rw [h]
    change _ ∨ (_ ∧ _ ∧ s.conclude (internally _ >>= _) = _) ∨
      ∃ w q, _ ∧ _ ∧ _ ∧ s.conclude (internally _ >>= _) = _
    rcases Work.keccakFRedStep_cases { s.work with Q := redLanes grid } with ⟨h1, h2⟩ | ⟨v, h1, h2, -, h4⟩
    · exact .inr (.inl ⟨hc, h1, by rw [conclude_internally, h2]⟩)
    · exact .inr (.inr ⟨v, v.Q, hc, h2, h4, by rw [conclude_internally, h1]; rfl⟩)
  · exact .inl ⟨k, hk, hlt, by rw [h]; rfl⟩

theorem execPermuteRed_ends (grid : Grid RedOperand) (s : State) : Ends s (execPermuteRed grid s) := by
  rcases execPermuteRed_cases grid s with ⟨k, -, hk, h⟩ | ⟨-, -, h⟩ | ⟨w, q, -, -, hw, h⟩
  · refine .raises _ h ?_
    have : (BitVec.ofNat 8 k).toNat < 25 := by rw [BitVec.toNat_ofNat]; omega
    simpa [Raise.fits, infoFits, Cause.code] using this
  · exact .raises _ h (by decide : infoFits _ _ = true)
  · exact .completes h ((completed_work s w hw).trans (completed_respond _ _))

theorem execEnc13_ends (w : Lane) (s : State) : Ends s (execEnc13 w s) :=
  .completes rfl (completed_respond s _)

theorem execEnc9_ends (w : Lane) (s : State) : Ends s (execEnc9 w s) :=
  .completes rfl (completed_respond s _)

theorem execDec13d_ends (d : Byte) (s : State) : Ends s (execDec13d d s) := by
  rw [execDec13d, conclude_require]
  split
  · exact .completes rfl (completed_respond s _)
  · rename_i h
    refine .raises ⟨.digitRange, d⟩ rfl ?_
    simp at h
    simp [Raise.fits, infoFits, Cause.code]; omega

theorem execDec9d_ends (d : Byte) (s : State) : Ends s (execDec9d d s) := by
  rw [execDec9d, conclude_require]
  split
  · exact .completes rfl (completed_respond s _)
  · rename_i h
    refine .raises ⟨.digitRange, d⟩ rfl ?_
    simp at h
    simp [Raise.fits, infoFits, Cause.code]; omega

theorem execDec13l_ends (n : RedOperand) (s : State) : Ends s (execDec13l n s) := by
  rw [execDec13l, conclude_require]
  split
  · exact .completes rfl (completed_respond s _)
  · exact .raises ⟨.laneRange, 0⟩ rfl (by decide : infoFits _ _ = true)

theorem execDec9l_ends (n : RedOperand) (s : State) : Ends s (execDec9l n s) := by
  rw [execDec9l, conclude_require]
  split
  · exact .completes rfl (completed_respond s _)
  · exact .raises ⟨.laneRange, 0⟩ rfl (by decide : infoFits _ _ = true)

theorem execNew_ends (s : State) : Ends s (execNew s) :=
  .completes rfl ⟨rfl, rfl, rfl, rfl, rfl, rfl, fun _ => by simpa using wf_ofBytes [], id⟩

theorem execFinalize_ends (s : State) : Ends s (execFinalize s) :=
  .completes rfl ⟨rfl, rfl, rfl, rfl, rfl, rfl, fun _ => wf_write wf_nil _ _, id⟩

theorem execSqueeze_ends (s : State) : Ends s (execSqueeze s) :=
  .completes rfl ⟨rfl, rfl, rfl, rfl, rfl, rfl, fun h => wf_write h _ _, id⟩

theorem execAbsorb_ends (s : State) : Ends s (execAbsorb s) := by
  unfold execAbsorb
  by_cases h : s.work.P.length % Config.rateBytes = 0
  · obtain ⟨w, hw, hr⟩ := s.absorbStep_ok h
    rw [hw]
    exact .completes rfl ⟨rfl, rfl, rfl, rfl, rfl, rfl, id, hr⟩
  · rw [s.absorbStep_bad h]
    exact .raises ⟨.absorbLength, 0⟩ rfl (by decide : infoFits _ _ = true)

/-- INGEST within the limit: the padded message is whole blocks, so ABSORB cannot fail. -/
theorem ingestWith_ok {limit len : BitVec 64} (h : len ≤ limit) (msg : List Byte) (s : State) :
    ∃ w, ingestWith limit len msg s =
        .next (({ s with work := w, S := absorb s.S (padMessage msg) }).respond []) ∧
      (s.work.rnd.toNat < Config.numRounds → w.rnd.toNat < Config.numRounds) := by
  obtain ⟨w, hw, hr⟩ := State.absorbStep_ok { s with work := s.work.padStep msg }
    (by simpa using length_padMessage_mod msg)
  refine ⟨w, ?_, hr⟩
  rw [ingestWith, conclude_require, if_pos (by simpa using h), hw]
  rfl

/-- INGEST over the limit. -/
theorem ingestWith_over {limit len : BitVec 64} (h : limit < len) (msg : List Byte) (s : State) :
    ingestWith limit len msg s = .next (s.raise ⟨.msgTooLong, 0⟩) := by
  rw [ingestWith, conclude_require, if_neg (by simpa using h)]

theorem execIngest_ends (len : BitVec 64) (msg : List Byte) (s : State) :
    Ends s (execIngest len msg s) := by
  unfold execIngest
  by_cases h : len ≤ Config.maxMessageBytes
  · obtain ⟨w, hw, hr⟩ := ingestWith_ok h msg s
    have hc : Completed s { s with work := w, S := absorb s.S (padMessage msg) } :=
      ⟨rfl, rfl, rfl, rfl, rfl, rfl, id, hr⟩
    exact .completes hw (hc.trans (completed_respond _ _))
  · exact .raises _ (ingestWith_over (by simpa using h) msg s) (by decide : infoFits _ _ = true)

/-- Every instruction completes, or is fault entry with a cause and an INFO that go together. -/
theorem exec_ends (i : Instr) (s : State) : Ends s (exec i s) := by
  cases i with
  | new => exact execNew_ends s
  | ingest len msg => exact execIngest_ends len msg s
  | finalize => exact execFinalize_ends s
  | permuteBin g => exact execPermuteBin_ends g s
  | permuteRed g => exact execPermuteRed_ends g s
  | enc13 w => exact execEnc13_ends w s
  | enc9 w => exact execEnc9_ends w s
  | dec13d d => exact execDec13d_ends d s
  | dec9d d => exact execDec9d_ends d s
  | dec13l n => exact execDec13l_ends n s
  | dec9l n => exact execDec9l_ends n s
  | theta => exact execTheta_ends s
  | rho => exact execRho_ends s
  | pi => exact execPi_ends s
  | chi => exact execChi_ends s
  | iota r => exact execIota_ends r s
  | round r => exact execRound_ends r s
  | theta13 => exact execTheta13_ends s
  | rho13to9 => exact execRho13to9_ends s
  | pi9 => exact execPi9_ends s
  | chi9 => exact execChi9_ends s
  | iota9 r => exact execIota9_ends r s
  | conv9to13 => exact execConv9to13_ends s
  | roundRed r => exact execRoundRed_ends r s
  | pad => exact execPad_ends s
  | absorb => exact execAbsorb_ends s
  | squeeze => exact execSqueeze_ends s

/-! ## Runs of completed instructions -/

@[simp] theorem completes_nil (s t : State) : Completes [] s t ↔ t = s := Iff.rfl

@[simp] theorem completes_cons (i : Instr) (is : List Instr) (s t : State) :
    Completes (i :: is) s t ↔ ∃ u, exec i s = .next u ∧ u.halted = false ∧ Completes is u t := Iff.rfl

/-- What every completed instruction of a run keeps, the run keeps. -/
theorem Completes.keeps {α : Type} (f : State → α) {is : List Instr} {s t : State} (h : Completes is s t)
    (hf : ∀ i ∈ is, ∀ s u, exec i s = .next u → f u = f s) : f t = f s := by
  induction is generalizing s with
  | nil => rw [(completes_nil s t).mp h]
  | cons i is ih =>
    obtain ⟨u, hu, -, hr⟩ := h
    rw [ih hr fun j hj => hf j (List.mem_cons_of_mem i hj), hf i List.mem_cons_self s u hu]

/-! ## Steps -/

/-- Everything a step can be. -/
theorem step_cases (s : State) :
    ((s.resetPending || s.inReset || s.halted) = true ∧ step s = .next s.hostEvent) ∨
    (s.running ∧ ((∃ w ws i, s.sequencer = w :: ws ∧ decodeUop w = .ok i ∧
        step s = exec i { s with sequencer := ws }) ∨
      (∃ w ws why, s.sequencer = w :: ws ∧ decodeUop w = .error why ∧
        step s = .next (s.raise ⟨.internalAssert, 0⟩)) ∨
      (∃ i operand rest, s.sequencer = [] ∧ decodeFrame s.rx = .command i operand rest ∧
        step s = exec i (s.takeFrame operand rest)) ∨
      (∃ op, s.sequencer = [] ∧ decodeFrame s.rx = .illegal op ∧
        step s = .next (s.raise ⟨.illegalCommand, op⟩)) ∨
      (s.sequencer = [] ∧ decodeFrame s.rx = .wait ∧ step s = .next s.hostEvent))) := by
  by_cases hq : (s.resetPending || s.inReset || s.halted) = true
  · exact .inl ⟨hq, by rw [step, if_pos hq]⟩
  · refine .inr ⟨?_, ?_⟩
    · simpa [State.running, and_assoc] using hq
    · have hstep : step s = match s.sequencer with
          | w :: ws => s.issue w ws
          | [] => s.receive := if_neg hq
      rcases hseq : s.sequencer with _ | ⟨w, ws⟩
      · rw [hseq] at hstep
        cases hd : decodeFrame s.rx with
        | wait => exact .inr (.inr (.inr (.inr ⟨rfl, rfl, by rw [hstep]; simp only [State.receive, hd]⟩)))
        | illegal op => exact .inr (.inr (.inr (.inl ⟨op, rfl, rfl, by rw [hstep]; simp only [State.receive, hd]⟩)))
        | command i o r =>
          exact .inr (.inr (.inl ⟨i, o, r, rfl, rfl, by rw [hstep]; simp only [State.receive, hd]⟩))
      · rw [hseq] at hstep
        cases hd : decodeUop w with
        | ok i => exact .inl ⟨w, ws, i, rfl, hd, by rw [hstep]; simp only [State.issue, hd]⟩
        | error why => exact .inr (.inl ⟨w, ws, why, rfl, hd, by rw [hstep]; simp only [State.issue, hd]⟩)

end Sys2Proof.Machine
end

