-- ==== Sys2Proof/Laws/Operands.lean ====
section
/-! SUPPORT. Little-endian fields and grids of them: each assembly undoes the other. -/

namespace Sys2Proof

@[simp] theorem length_leBytes (n v : Nat) : (leBytes n v).length = n := by
  induction n generalizing v with
  | zero => rfl
  | succ n ih => simp [leBytes, ih]

theorem leNat_lt (bs : List Byte) : leNat bs < 256 ^ bs.length := by
  induction bs with
  | nil => simp [leNat]
  | cons b bs ih =>
    have := b.isLt
    simp only [leNat, List.length_cons, pow_succ]
    omega

/-- `LE` of the bytes of a value is the value, if it fits. -/
theorem leNat_leBytes (n v : Nat) : leNat (leBytes n v) = v % 256 ^ n := by
  induction n generalizing v with
  | zero => simp [leBytes, leNat, Nat.mod_one]
  | succ n ih =>
    have e : v % 256 ^ (n + 1) = v % 256 + 256 * (v / 256 % 256 ^ n) := by rw [pow_succ', Nat.mod_mul]
    have b : (BitVec.ofNat 8 v).toNat = v % 256 := BitVec.toNat_ofNat v 8
    rw [leBytes, leNat, ih, b, e]

/-- The bytes of the `LE` of a byte string are the byte string. -/
theorem leBytes_leNat (bs : List Byte) : leBytes bs.length (leNat bs) = bs := by
  induction bs with
  | nil => rfl
  | cons b bs ih =>
    have hb := b.isLt
    have h1 : (b.toNat + 256 * leNat bs) / 256 = leNat bs := by omega
    have h2 : BitVec.ofNat 8 (b.toNat + 256 * leNat bs) = b := by
      apply BitVec.eq_of_toNat_eq
      simp; omega
    simp only [List.length_cons, leNat, leBytes, h1, h2, ih]

@[simp] theorem length_leBytes64 (v : Lane) : (leBytes64 v).length = 8 := length_leBytes 8 _

@[simp] theorem length_leBytes256 (n : Nat) : (leBytes256 n).length = 32 := length_leBytes 32 _

@[simp] theorem le64_leBytes64 (v : Lane) : le64 (leBytes64 v) = v := by
  apply BitVec.eq_of_toNat_eq
  have := v.isLt
  simp only [le64, leBytes64, leNat_leBytes, BitVec.toNat_ofNat]
  rw [Nat.mod_mod_of_dvd _ (by norm_num)]
  omega

theorem leBytes64_le64 {bs : List Byte} (h : bs.length = 8) : leBytes64 (le64 bs) = bs := by
  have hlt := leNat_lt bs
  rw [h] at hlt
  have e : (le64 bs).toNat = leNat bs := by
    simp only [le64, BitVec.toNat_ofNat]
    exact Nat.mod_eq_of_lt (by simpa using hlt)
  have := leBytes_leNat bs
  rw [leBytes64, e, ← h, this]

/-- A value below `2^256` is the `LE256` of its 32 bytes. -/
theorem leNat_leBytes256 {n : Nat} (h : n < 2 ^ 256) : leNat (leBytes256 n) = n := by
  rw [leBytes256, leNat_leBytes]
  exact Nat.mod_eq_of_lt (by norm_num at h ⊢; exact h)

@[simp] theorem le256_leBytes256 (v : RedOperand) : le256 (leBytes256 v.toNat) = v := by
  apply BitVec.eq_of_toNat_eq
  have := v.isLt
  rw [le256, leNat_leBytes256 this, BitVec.toNat_ofNat]
  exact Nat.mod_eq_of_lt this

theorem leBytes256_le256 {bs : List Byte} (h : bs.length = 32) :
    leBytes256 (le256 bs).toNat = bs := by
  have hlt := leNat_lt bs
  rw [h] at hlt
  have e : (le256 bs).toNat = leNat bs := by
    simp only [le256, BitVec.toNat_ofNat]
    exact Nat.mod_eq_of_lt (by norm_num at hlt ⊢; exact hlt)
  have := leBytes_leNat bs
  rw [leBytes256, e, ← h, this]

/-! ## Fields of a list of equal chunks -/

theorem length_flatMap_chunks {α : Type} (n : Nat) (f : α → List Byte) (hf : ∀ a, (f a).length = n)
    (l : List α) : (l.flatMap f).length = n * l.length := by
  induction l with
  | nil => simp
  | cons a l ih => simp [hf, ih]; ring

/-- Chunk `i` of the concatenation of the lanes' bytes is the bytes of lane `i`. -/
theorem field_flatMap_chunks {α : Type} (n : Nat) (f : α → List Byte) (hf : ∀ a, (f a).length = n)
    (l : List α) (i : Nat) (a : α) (h : l[i]? = some a) : field (n * i) n (l.flatMap f) = f a := by
  induction l generalizing i with
  | nil => simp at h
  | cons b l ih =>
    cases i with
    | zero =>
      simp at h; subst h
      simp [field, hf]
    | succ i =>
      simp at h
      have := ih i h
      simp only [field, List.flatMap_cons] at this ⊢
      rw [Nat.mul_succ, Nat.add_comm, List.drop_append, hf, List.drop_of_length_le (by rw [hf]; omega)]
      simpa using this

/-- The chunks of a byte string, put together again. -/
theorem flatMap_field_chunks (n k : Nat) (bs : List Byte) (h : bs.length = n * k) :
    ((List.range k).flatMap fun i => field (n * i) n bs) = bs := by
  induction k generalizing bs with
  | zero => simp at h; simp [h]
  | succ k ih =>
    have ih := ih (bs.drop n) (by simp [h, Nat.mul_succ])
    rw [List.range_succ_eq_map, List.flatMap_cons, List.flatMap_map]
    have e : (fun i => field (n * (i + 1)) n bs) = fun i => field (n * i) n (bs.drop n) := by
      funext i; simp only [field, List.drop_drop]; congr 2; ring
    rw [e, ih]
    simp [field]

theorem lanes_ofIndex {α : Type} (f : Nat → α) : (Grid.ofIndex f).lanes = (List.range 25).map f := rfl

@[simp] theorem length_bytesOfGrid64 (g : Grid Lane) : (bytesOfGrid64 g).length = 200 := by
  simp [bytesOfGrid64, length_flatMap_chunks 8 leBytes64 length_leBytes64]

@[simp] theorem length_bytesOfGrid256 (g : Grid Nat) : (bytesOfGrid256 g).length = 800 := by
  simp [bytesOfGrid256, length_flatMap_chunks 32 leBytes256 length_leBytes256]

/-- A binary grid is what its 200 bytes assemble to (R105). -/
@[simp] theorem gridOfBytes64_bytesOfGrid64 (g : Grid Lane) : gridOfBytes64 (bytesOfGrid64 g) = g := by
  apply Grid.ext_get
  intro x y
  simp only [gridOfBytes64, Grid.get_ofIndex, bytesOfGrid64]
  rw [field_flatMap_chunks 8 leBytes64 length_leBytes64 _ _ _ (g.lanes_getElem x y), le64_leBytes64]

/-- A redundant operand grid is what its 800 bytes assemble to (R105). -/
@[simp] theorem gridOfBytes256_bytesOfGrid256 (g : Grid RedOperand) :
    gridOfBytes256 (bytesOfGrid256 (redLanes g)) = g := by
  apply Grid.ext_get
  intro x y
  simp only [gridOfBytes256, Grid.get_ofIndex, bytesOfGrid256]
  rw [field_flatMap_chunks 32 leBytes256 length_leBytes256 _ _ _ ((redLanes g).lanes_getElem x y)]
  simp [redLanes]

theorem bytesOfGrid64_gridOfBytes64 {bs : List Byte} (h : bs.length = 200) :
    bytesOfGrid64 (gridOfBytes64 bs) = bs := by
  rw [bytesOfGrid64, gridOfBytes64, lanes_ofIndex, List.flatMap_map]
  rw [← flatMap_field_chunks 8 25 bs h]
  refine List.flatMap_congr fun i hi => ?_
  rw [flatMap_field_chunks 8 25 bs h]
  simp at hi
  exact leBytes64_le64 (by simp [field, h]; omega)

theorem bytesOfGrid256_gridOfBytes256 {bs : List Byte} (h : bs.length = 800) :
    bytesOfGrid256 (redLanes (gridOfBytes256 bs)) = bs := by
  rw [bytesOfGrid256, redLanes, Grid.lanes_map, gridOfBytes256, lanes_ofIndex, List.map_map,
    List.flatMap_map]
  rw [← flatMap_field_chunks 32 25 bs h]
  refine List.flatMap_congr fun i hi => ?_
  rw [flatMap_field_chunks 32 25 bs h]
  simp at hi
  exact leBytes256_le256 (by simp [field, h]; omega)

end Sys2Proof
end

