-- ==== Sys2Proof/Laws/PerInstr.lean ====
section
/-! SUPPORT. Statements made for each instruction as syntax: what level it is encoded at and under which
selecting field (30_encoding.md R100, R104, R110). -/

namespace Sys2Proof.Laws

/-- The field that selects an instruction: byte 0 of a frame (R104), or `uop` of a word (R110). -/
inductive Selector where
  | opcode (op : Byte)
  | uop (code : BitVec 5)
deriving DecidableEq, Repr

/-- The selecting field of an encoding; an empty frame has none. -/
def selectorOf : Encoding → Option Selector
  | .frame [] => none
  | .frame (op :: _) => some (.opcode op)
  | .uop w => some (.uop (uopField w))

/-- The selecting field that the opcode map gives an instruction (R103, R111). -/
def rowSelector : Instr → Selector
  | .new => .opcode 0x01
  | .ingest _ _ => .opcode 0x02
  | .finalize => .opcode 0x03
  | .permuteBin _ => .opcode 0x04
  | .permuteRed _ => .opcode 0x05
  | .enc13 _ => .opcode 0x06
  | .enc9 _ => .opcode 0x07
  | .dec13d _ => .opcode 0x08
  | .dec9d _ => .opcode 0x09
  | .dec13l _ => .opcode 0x0A
  | .dec9l _ => .opcode 0x0B
  | .theta => .uop 0x00
  | .rho => .uop 0x01
  | .pi => .uop 0x02
  | .chi => .uop 0x03
  | .iota _ => .uop 0x04
  | .round _ => .uop 0x05
  | .theta13 => .uop 0x08
  | .rho13to9 => .uop 0x09
  | .pi9 => .uop 0x0A
  | .chi9 => .uop 0x0B
  | .iota9 _ => .uop 0x0C
  | .conv9to13 => .uop 0x0D
  | .roundRed _ => .uop 0x0E
  | .pad => .uop 0x10
  | .absorb => .uop 0x11
  | .squeeze => .uop 0x12

/-- An instruction is encoded under the selecting field of its row. -/
def EncodedLevel.Statement (i : Instr) : Prop := selectorOf (encode i) = some (rowSelector i)

theorem uopField_uopWord (uop rnd : BitVec 5) : uopField (uopWord uop rnd) = uop := by
  ext i hi
  simp only [uopField, uopWord, BitVec.getElem_extractLsb', BitVec.getLsbD_append]
  simp [hi]

theorem rndField_uopWord (uop rnd : BitVec 5) : rndField (uopWord uop rnd) = rnd := by
  ext i hi
  simp only [rndField, uopWord, BitVec.getElem_extractLsb', BitVec.getLsbD_append]
  simp [hi]

/-- A micro-op word whose fields are given is that word (R110). -/
theorem uopWord_fields (w : UopWord) : uopWord (uopField w) (rndField w) = w := by
  apply BitVec.eq_of_getLsbD_eq
  intro i hi
  simp only [uopWord, uopField, rndField, BitVec.getLsbD_append, BitVec.getLsbD_extractLsb']
  by_cases h : i < 5
  · simp [h]
  · simp [h, show i - 5 < 5 by omega, show 5 + (i - 5) = i by omega]

namespace EncodedLevel

theorem new : Statement .new := rfl
theorem ingest (len : BitVec 64) (msg : List Byte) : Statement (.ingest len msg) := rfl
theorem finalize : Statement .finalize := rfl
theorem permuteBin (grid : Grid Lane) : Statement (.permuteBin grid) := rfl
theorem permuteRed (grid : Grid RedOperand) : Statement (.permuteRed grid) := rfl
theorem enc13 (w : Lane) : Statement (.enc13 w) := rfl
theorem enc9 (w : Lane) : Statement (.enc9 w) := rfl
theorem dec13d (d : Byte) : Statement (.dec13d d) := rfl
theorem dec9d (d : Byte) : Statement (.dec9d d) := rfl
theorem dec13l (n : RedOperand) : Statement (.dec13l n) := rfl
theorem dec9l (n : RedOperand) : Statement (.dec9l n) := rfl
theorem theta : Statement .theta := rfl
theorem rho : Statement .rho := rfl
theorem pi : Statement .pi := rfl
theorem chi : Statement .chi := rfl
theorem iota (rnd : BitVec 5) : Statement (.iota rnd) := by
  simp [Statement, selectorOf, encode, rowSelector, uopField_uopWord]
theorem round (rnd : BitVec 5) : Statement (.round rnd) := by
  simp [Statement, selectorOf, encode, rowSelector, uopField_uopWord]
theorem theta13 : Statement .theta13 := rfl
theorem rho13to9 : Statement .rho13to9 := rfl
theorem pi9 : Statement .pi9 := rfl
theorem chi9 : Statement .chi9 := rfl
theorem iota9 (rnd : BitVec 5) : Statement (.iota9 rnd) := by
  simp [Statement, selectorOf, encode, rowSelector, uopField_uopWord]
theorem conv9to13 : Statement .conv9to13 := rfl
theorem roundRed (rnd : BitVec 5) : Statement (.roundRed rnd) := by
  simp [Statement, selectorOf, encode, rowSelector, uopField_uopWord]
theorem pad : Statement .pad := rfl
theorem absorb : Statement .absorb := rfl
theorem squeeze : Statement .squeeze := rfl

end EncodedLevel

end Sys2Proof.Laws
end

