-- ==== Sys2Proof/Tests/Slice0.lean ====
section
/-! SUPPORT. The smoke tests of WellFormed,
    the decode tests (words written out from 30_encoding.md R103,
R110 and R111), single-step tests whose expected results are the vectors of 95_test_vectors.md, and a
witness for the hypotheses of each statement. -/

namespace Sys2Proof.Tests

set_option Elab.async false

open Sys2Proof Sys2Proof.Machine

/-! ## Helpers -/

/-- Reset state with the given working grids. -/
def onA (a : Grid Lane) : State := { State.reset with work := { Work.reset with A := a } }
def onQ (q : Grid RedLane) : State := { State.reset with work := { Work.reset with Q := q } }
/-- Reset state whose padded-message buffer holds `P`. -/
def onP (P : List Byte) : State := { State.reset with work := { Work.reset with P := P } }
/-- Reset state whose frame decoder holds these bytes. -/
def received (bs : List Byte) : State := { State.reset with rx := bs }
/-- Reset state whose sequencer holds one word. -/
def sequenced (w : UopWord) : State := { State.reset with sequencer := [w] }
/-- Reset state for which the host does these things. -/
def hosted (es : List HostEvent) : State := { State.reset with inbox := es }
/-- The next state, if there is one. -/
def nextOf : Result → Option State
  | .next t => some t
  | .fault _ => none
  | .refused _ => none
/-- One field of the next state. -/
def after {α : Type} (f : State → α) (r : Result) : Option α := (nextOf r).map f
/-- The row `y = 0` filled, every other lane `v`. -/
def rowGrid {α : Type} (r : Row α) (v : α) : Grid α := { Grid.fill v with y0 := r }
/-- Grid with lane index `i` set. -/
def oneLane {α : Type} (i : Nat) (a v : α) : Grid α := Grid.ofIndex fun j => if j = i then a else v
/-- The grid `lane i = i` of V26. -/
def countGrid : Grid Lane := Grid.ofIndex fun i => BitVec.ofNat 64 i
def foo : List Byte := [0x66, 0x6f, 0x6f]
def bar : List Byte := [0x62, 0x61, 0x72]

/-! ## WellFormed: ill-formed terms are refused -/

theorem test_wf_ingest_without_its_bytes : (Instr.ingest 0 [0x61]).wf = false := by
  simp [Instr.wf, ingestOk]
theorem test_ingestOk_short_message : ingestOk 16 2 [0x61] = false := by decide
theorem test_ingestOk_bytes_after_overlong_length : ingestOk 16 17 [0x61] = false := by decide
theorem test_wf_iota_24 : (Instr.iota 24).wf = false := by decide
theorem test_wf_round_31 : (Instr.round 31).wf = false := by decide
theorem test_wf_iota9_24 : (Instr.iota9 24).wf = false := by decide
theorem test_wf_roundRed_24 : (Instr.roundRed 24).wf = false := by decide

/-! ## Decode: one word of each row, written out from the spec's encoding -/

theorem test_decode_new : decode (.frame [0x01]) = .ok .new := rfl
theorem test_decode_ingest : decodeFrameWith 16 ([0x02, 0x03, 0, 0, 0, 0, 0, 0, 0] ++ foo) =
    .command (.ingest 3 foo) ([0x03, 0, 0, 0, 0, 0, 0, 0] ++ foo) [] := by decide
theorem test_decode_ingest_over_the_limit : decodeFrameWith 16 [0x02, 0x11, 0, 0, 0, 0, 0, 0, 0, 0xAB] =
    .command (.ingest 17 []) [0x11, 0, 0, 0, 0, 0, 0, 0] [0xAB] := by decide
theorem test_decode_finalize : decode (.frame [0x03]) = .ok .finalize := rfl
/-- The frame of program P3: lane `i` is `i`, 8 little-endian bytes each. -/
theorem test_decode_permuteBin :
    decodeFrame (0x04 :: (List.range 25).flatMap fun i => [BitVec.ofNat 8 i, 0, 0, 0, 0, 0, 0, 0]) =
      .command (.permuteBin countGrid)
        ((List.range 25).flatMap fun i => [BitVec.ofNat 8 i, 0, 0, 0, 0, 0, 0,
    0]) [] := by decide +kernel
theorem test_decode_permuteRed :
    decodeFrame (0x05 :: (List.range 25).flatMap fun i => BitVec.ofNat 8 i :: List.replicate 31 0) =
      .command (.permuteRed (Grid.ofIndex fun i => BitVec.ofNat 256 i))
        ((List.range 25).flatMap fun i => BitVec.ofNat 8 i :: List.replicate 31 0) [] := by decide +kernel
theorem test_decode_enc13 : decode (.frame [0x06, 0x01, 0, 0, 0, 0, 0, 0, 0x80]) =
    .ok (.enc13 0x8000000000000001) := rfl
theorem test_decode_enc9 : decode (.frame [0x07, 0x34, 0x12, 0, 0, 0, 0, 0,
    0]) = .ok (.enc9 0x1234) := rfl
theorem test_decode_dec13d : decode (.frame [0x08, 0xff]) = .ok (.dec13d 255) := rfl
theorem test_decode_dec9d : decode (.frame [0x09, 0x07]) = .ok (.dec9d 7) := rfl
theorem test_decode_dec13l : decode (.frame (0x0A :: 0x92 :: List.replicate 31 0)) = .ok (.dec13l 146) := rfl
theorem test_decode_dec9l : decode (.frame (0x0B :: List.replicate 31 0 ++ [0x01])) =
    .ok (.dec9l (1 <<< 248)) := rfl
theorem test_decode_theta : decode (.uop 0b0000000000) = .ok .theta := rfl
theorem test_decode_rho : decode (.uop 0b0000000001) = .ok .rho := rfl
theorem test_decode_pi : decode (.uop 0b0000000010) = .ok .pi := rfl
theorem test_decode_chi : decode (.uop 0b0000000011) = .ok .chi := rfl
theorem test_decode_iota : decode (.uop 0b1011100100) = .ok (.iota 23) := rfl
theorem test_decode_round : decode (.uop 0b0000100101) = .ok (.round 1) := rfl
theorem test_decode_theta13 : decode (.uop 0b0000001000) = .ok .theta13 := rfl
theorem test_decode_rho13to9 : decode (.uop 0b0000001001) = .ok .rho13to9 := rfl
theorem test_decode_pi9 : decode (.uop 0b0000001010) = .ok .pi9 := rfl
theorem test_decode_chi9 : decode (.uop 0b0000001011) = .ok .chi9 := rfl
theorem test_decode_iota9 : decode (.uop 0b1000001100) = .ok (.iota9 16) := rfl
theorem test_decode_conv9to13 : decode (.uop 0b0000001101) = .ok .conv9to13 := rfl
theorem test_decode_roundRed : decode (.uop 0b0101001110) = .ok (.roundRed 10) := rfl
theorem test_decode_pad : decode (.uop 0b0000010000) = .ok .pad := rfl
theorem test_decode_absorb : decode (.uop 0b0000010001) = .ok .absorb := rfl
theorem test_decode_squeeze : decode (.uop 0b0000010010) = .ok .squeeze := rfl

/-- R112: the three ways a word is reserved. -/
theorem test_decode_reserved_words : decodeUop 0b0000000110 = .error .unlistedUop ∧
    decodeUop 0b1100000100 = .error .roundOutOfRange ∧ decodeUop 0b0000100000 = .error .roundNotUsed :=
  ⟨rfl, rfl, rfl⟩

/-- R108, R109: incomplete frames, unassigned opcodes, and bytes left for the next frame. -/
theorem test_decode_frame_edges : decodeFrame [0x08] = .wait ∧ decodeFrame [0x00, 1] = .illegal 0x00 ∧
    decodeFrame [0x0C] = .illegal 0x0C ∧ decodeFrame [0x01,
    0x03] = .command .new [] [0x03] := ⟨rfl, rfl, rfl, rfl⟩

/-- The table's words: a frame opcode with zero operands, and a micro-op word. -/
theorem test_table_words : decodeTableWord 8 0x06 = some (.enc13 0) ∧ decodeTableWord 16 0x04 = some (.iota 0) ∧
    decodeTableWord 16 0x012 = some .squeeze ∧ decodeTableWord 8 0x00 = some .theta := ⟨rfl, rfl,
    rfl, rfl⟩

/-- R250: the block's configuration is admitted; a digest of 28 bytes and an empty capacity are not. -/
theorem test_configuration : Config.admitted Config.rateBytes Config.capacityBytes = true ∧
    Config.admitted 144 56 = false ∧ Config.admitted 200 0 = false ∧ Config.digestBytes = 32 := by decide

/-! ## ROMs: the generating procedures of R42 give the tables -/

theorem test_generatedRC : ∀ i : Fin 24, generatedRC i.val = roundConstant i.val := by decide +kernel
theorem test_generatedOffsets :
    (generatedOffsets.all fun p => rhoOffsets.get p.1.1 p.1.2 == p.2) = true ∧ generatedOffsets.length = 24 ∧
      (generatedOffsets.map (·.1)).Nodup ∧ rhoOffsets.get 0 0 = 0 := by decide +kernel

/-! ## Binary engine -/

/-- V20, first and third inputs. -/
theorem test_theta_V20 : after (·.work.A) (exec .theta (onA (oneLane 0 0x1 0))) =
    some ⟨⟨1, 1, 0, 0, 2⟩, ⟨0, 1, 0, 0, 2⟩, ⟨0, 1, 0, 0, 2⟩, ⟨0, 1, 0, 0, 2⟩, ⟨0, 1, 0, 0, 2⟩⟩ := by
  decide +kernel
theorem test_theta_V20_wrap : (after (·.work.A) (exec .theta (onA (oneLane 0 0x8000000000000000 0)))).map
    (fun a => (a.get 0 0, a.get 1 3, a.get 4 2)) =
      some (0x8000000000000000, 0x8000000000000000, 0x1) := by decide +kernel
/-- V21. -/
theorem test_rho_V21 : after (·.work.A) (exec .rho (onA (Grid.fill 0x1))) =
    some ⟨⟨0x0000000000000001, 0x0000000000000002, 0x4000000000000000, 0x0000000010000000,
    0x0000000008000000⟩,
   ⟨0x0000001000000000, 0x0000100000000000, 0x0000000000000040, 0x0080000000000000, 0x0000000000100000⟩,
   ⟨0x0000000000000008, 0x0000000000000400, 0x0000080000000000, 0x0000000002000000, 0x0000008000000000⟩,
   ⟨0x0000020000000000, 0x0000200000000000, 0x0000000000008000, 0x0000000000200000, 0x0000000000000100⟩,
   ⟨0x0000000000040000, 0x0000000000000004, 0x2000000000000000, 0x0100000000000000,
    0x0000000000004000⟩⟩ := by decide +kernel
/-- V22. -/
theorem test_pi_V22 : after (·.work.A) (exec .pi (onA countGrid)) =
    some ⟨⟨0, 6, 12, 18, 24⟩, ⟨3, 9, 10, 16, 22⟩, ⟨1, 7, 13, 19, 20⟩, ⟨4, 5, 11, 17, 23⟩, ⟨2, 8,
    14, 15, 21⟩⟩ := by
  decide +kernel
/-- V23. -/
theorem test_chi_V23 : after (·.work.A) (exec .chi (onA (rowGrid ⟨0xF0, 0xCC, 0xAA, 0, 0⟩ 0))) =
    some (rowGrid ⟨0xD2, 0xCC, 0xAA, 0xF0, 0x0C⟩ 0) := by decide +kernel
/-- V24. -/
theorem test_iota_V24 : after (·.work.A) (exec (.iota 23) (onA (Grid.fill 0))) =
    some (oneLane 0 0x8000000080008008 0) := by decide +kernel
/-- V24. -/
theorem test_round_V24 : after (·.work.A) (exec (.round 1) (onA (oneLane 0 0x1 0))) =
    some ⟨⟨0x0000000000008083, 0x0000100000000000, 0x0000000000008000, 0x0000000000000001,
    0x0000100000008000⟩,
   ⟨0x0000000000000000, 0x0000200000200000, 0x0000000000000000, 0x0000200000000000, 0x0000000000200000⟩,
   ⟨0x0000000000000002, 0x0000000000000200, 0x0000000000000000, 0x0000000000000202, 0x0000000000000000⟩,
   ⟨0x0000000010000400, 0x0000000000000000, 0x0000000000000400, 0x0000000010000000, 0x0000000000000000⟩,
   ⟨0x0000010000000000, 0x0000000000000000, 0x0000010000000004, 0x0000000000000000,
    0x0000000000000004⟩⟩ := by decide +kernel
/-- R112. -/
theorem test_round_24 : after (·.status) (exec (.round 24) State.reset) = some 0x0071 := by decide +kernel
/-- V25: the image of the zero grid. -/
theorem test_keccakF_V25 : keccakF (Grid.fill 0) =
    ⟨⟨0xF1258F7940E1DDE7, 0x84D5CCF933C0478A, 0xD598261EA65AA9EE, 0xBD1547306F80494D,
    0x8B284E056253D057⟩,
   ⟨0xFF97A42D7F8E6FD4, 0x90FEE5A0A44647C4, 0x8C5BDA0CD6192E76, 0xAD30A6F71B19059C, 0x30935AB7D08FFC64⟩,
   ⟨0xEB5AA93F2317D635, 0xA9A6E6260D712103, 0x81A57C16DBCF555F, 0x43B831CD0347C826, 0x01F22F1A11A5569F⟩,
   ⟨0x05E5635A21D9AE61, 0x64BEFEF28CC970F2, 0x613670957BC46611, 0xB87C5A554FD00ECB, 0x8C3EE88A1CCF32C8⟩,
   ⟨0x940C7922AE3A2614, 0x1841F924A2C509E4, 0x16F53526E70465C2, 0x75F644E97F30A13B,
    0xEAF1FF7B5CECA249⟩⟩ := by decide +kernel
/-- V26: the response to the frame of program P3. -/
theorem test_permuteBin_V26 : after (·.tx) (exec (.permuteBin countGrid) State.reset) =
    some [bytesOfGrid64
  ⟨⟨0x8374B05252ED8115, 0x1DF7A676B6569400, 0xF765194B8A51797D, 0x20477B43D1760545, 0xD15F8BA4F3F6606A⟩,
   ⟨0xA1D7144F7C8DD493, 0x30D193965138FD3F, 0x487E9472951BE3BE, 0x0CF3A858CBDA7A5A, 0x2FE54E389BB17F88⟩,
   ⟨0x0B7338DE0D9F268F, 0x55EFDFF58B256D7F, 0xC8353E94EB2C3E6A, 0x2E2AF6948C901F11, 0xE873DE0CCA309DA6⟩,
   ⟨0xF7AFC26C944D31E2, 0xA0F5EA808CC415D7, 0x53F531437E3ED8CF, 0x777F1F3B43A4D221, 0xFD0CA63CB499E985⟩,
   ⟨0xD4C055C0C5D12330, 0xA72FE58AA6E0A7DF, 0x421AF5937C9948A3, 0x5E16103071340888,
    0xD153F43A297E4A33⟩⟩] := by decide +kernel

/-! ## Codec -/

/-- V10. -/
theorem test_enc13_V10 : after (·.tx) (exec (.enc13 0xFFFFFFFFFFFFFFFF) State.reset) =
    some [[0xc0, 0xbe, 0xbd, 0xc4, 0xa2, 0x49, 0x58, 0xb7, 0xad, 0x5a, 0x07, 0x44, 0xee, 0xde,
    0xf5, 0xaf, 0xdd, 0x27, 0x2b, 0x90, 0xcb, 0x5e, 0xac, 0xaf, 0x8d, 0xc4, 0x96, 0x00, 0x5e, 0x02,
    0x00, 0x00]] := by decide +kernel
theorem test_enc13_V10_ff : after (·.tx) (exec (.enc13 0xFF) State.reset) =
    some [[0x58, 0x41, 0x0d, 0x04] ++ List.replicate 28 0] := by decide +kernel
/-- V11. -/
theorem test_enc9_V11 : after (·.tx) (exec (.enc9 0xFFFFFFFFFFFFFFFF) State.reset) =
    some [[0x40, 0xcf, 0x50, 0x31, 0x90, 0x42, 0x08, 0x90, 0x6c, 0x7c, 0x6f, 0x9f, 0xef, 0x11,
    0x8b, 0xfc, 0xdd, 0xa5, 0x49, 0x4b, 0x1b, 0xd2, 0x1c, 0xc9, 0xea, 0x00, 0x00, 0x00, 0x00, 0x00,
    0x00, 0x00]] := by decide +kernel
/-- V12. -/
theorem test_dec13d_V12 : after (·.tx) (exec (.dec13d 11) State.reset) = some [[1]] := by decide +kernel
theorem test_dec13d_V12_fault : after (fun t => (t.status, t.tx)) (exec (.dec13d 13) State.reset) =
    some (0x0D41, []) := by decide +kernel
/-- V13. -/
theorem test_dec9d_V13 : after (·.tx) (exec (.dec9d 7) State.reset) = some [[1]] := by decide +kernel
theorem test_dec9d_V13_fault : after (fun t => (t.status, t.tx)) (exec (.dec9d 9) State.reset) =
    some (0x0941, []) := by decide +kernel
/-- V14. -/
theorem test_dec13l_V14 : after (·.tx) (exec (.dec13l 146) State.reset) = some [[3, 0, 0, 0, 0, 0,
    0, 0]] := by
  decide +kernel
theorem test_dec13l_V14_edge : after (·.tx) (exec (.dec13l (BitVec.ofNat 256 (13 ^ 64 - 1))) State.reset) =
      some [List.replicate 8 0] ∧
    after (·.status) (exec (.dec13l (BitVec.ofNat 256 (13 ^ 64))) State.reset) = some 0x0061 := by
  decide +kernel
/-- V15; `2·ENC_9(0x1234) = 565634045322` (program P6). -/
theorem test_dec9l_V15 : after (·.tx) (exec (.dec9l 565634045322) State.reset) =
    some [[0x34, 0x12, 0, 0, 0, 0, 0, 0]] := by decide +kernel
theorem test_dec9l_V15_edge : after (·.tx) (exec (.dec9l (BitVec.ofNat 256 (9 ^ 64 - 1))) State.reset) =
      some [List.replicate 8 0] ∧
    after (·.status) (exec (.dec9l (BitVec.ofNat 256 (9 ^ 64))) State.reset) = some 0x0061 := by
  decide +kernel

/-! ## Redundant engine -/

/-- V30, second input: digit 64. -/
theorem test_theta13_V30 : (after (·.work.Q) (exec .theta13 (onQ (oneLane 0 (13 ^ 63) 0)))).map
    (fun a => (a.get 0 0, a.get 1 4, a.get 4 2, a.get 2 2)) = some (13 ^ 63, 13 ^ 63, 13 ^ 64, 0) := by
  decide +kernel
/-- V31: row `y = 0` has the offsets 0, 1, 62, 28, 27. -/
theorem test_rho13to9_V31 : after (·.work.Q.y0)
    (exec .rho13to9 (onQ (rowGrid ⟨1 + 13 ^ 64, 11, 0, 0, 13 ^ 64⟩ 0))) = some ⟨0, 9, 0, 0,
    9 ^ 27⟩ := by
  decide +kernel
/-- R213's precondition. -/
theorem test_rho13to9_too_many_digits : after (·.status) (exec .rho13to9 (onQ (oneLane 24 (13 ^ 65) 0))) =
    some 0x0071 := by decide +kernel
/-- V22. -/
theorem test_pi9_V22 : after (·.work.Q) (exec .pi9 (onQ (Grid.ofIndex id))) =
    some ⟨⟨0, 6, 12, 18, 24⟩, ⟨3, 9, 10, 16, 22⟩, ⟨1, 7, 13, 19, 20⟩, ⟨4, 5, 11, 17, 23⟩, ⟨2, 8,
    14, 15, 21⟩⟩ := by
  decide +kernel
/-- V32. -/
theorem test_chi9_V32 : after (·.work.Q.y0) (exec .chi9 (onQ (rowGrid ⟨1, 0, 0, 0, 0⟩ 0))) =
    some ⟨2, 0, 0, 3, 1⟩ := by decide +kernel
theorem test_chi9_V32_digits : (after (·.work.Q.y0)
    (exec .chi9 (onQ (rowGrid ⟨encLane 9 0xF0, encLane 9 0xCC, encLane 9 0xAA, 0, 0⟩ 0)))).map
    (fun r => ((List.range 8).map (digit 9 r.x0), decLane9 r.x0, decLane9 r.x4)) =
      some ([0, 3, 1, 4, 2, 5, 3, 6], 0xD2, 0x0C) := by decide +kernel
/-- V33. -/
theorem test_iota9_V33 : after (·.work.Q) (exec (.iota9 1) (onQ (Grid.fill 0))) =
    some (oneLane 0 411782273755254 0) := by decide +kernel
/-- V34. -/
theorem test_conv9to13_V34 : after (·.work.Q.y0)
    (exec .conv9to13 (onQ (rowGrid ⟨2, 7, 8, 1, 2 * encLane 9 0x8082⟩ 0))) =
      some ⟨1, 1, 0, 0, encLane 13 0x8082⟩ := by decide +kernel
/-- R219's precondition. -/
theorem test_conv9to13_too_many_digits : after (·.status) (exec .conv9to13 (onQ (oneLane 7 (9 ^ 64) 0))) =
    some 0x0071 := by decide +kernel
/-- V24 through R223: the round of an encoded grid is the encoding of its round. -/
theorem test_roundRed_V24 : after (·.work.Q) (exec (.roundRed 1) (onQ (oneLane 0 1 0))) =
    some (Grid.map (encLane 13)
  ⟨⟨0x0000000000008083, 0x0000100000000000, 0x0000000000008000, 0x0000000000000001, 0x0000100000008000⟩,
   ⟨0x0000000000000000, 0x0000200000200000, 0x0000000000000000, 0x0000200000000000, 0x0000000000200000⟩,
   ⟨0x0000000000000002, 0x0000000000000200, 0x0000000000000000, 0x0000000000000202, 0x0000000000000000⟩,
   ⟨0x0000000010000400, 0x0000000000000000, 0x0000000000000400, 0x0000000010000000, 0x0000000000000000⟩,
   ⟨0x0000010000000000, 0x0000000000000000, 0x0000010000000004, 0x0000000000000000,
    0x0000000000000004⟩⟩) := by decide +kernel
/-- V35: lane 3 is 2 and lane 1 is 12; the lower is reported. -/
theorem test_permuteRed_V35_fault : after (fun t => (t.status, t.tx)) (exec (.permuteRed
    (Grid.ofIndex fun i => if i = 3 then 2 else if i = 1 then 12 else 0)) State.reset) =
      some (0x0151, []) := by decide +kernel
/-- V35: the image of the encoded zero grid. -/
theorem test_keccakFRed_V35 : keccakFRed (Grid.fill 0) = some (Grid.map (encLane 13)
  ⟨⟨0xF1258F7940E1DDE7, 0x84D5CCF933C0478A, 0xD598261EA65AA9EE, 0xBD1547306F80494D, 0x8B284E056253D057⟩,
   ⟨0xFF97A42D7F8E6FD4, 0x90FEE5A0A44647C4, 0x8C5BDA0CD6192E76, 0xAD30A6F71B19059C, 0x30935AB7D08FFC64⟩,
   ⟨0xEB5AA93F2317D635, 0xA9A6E6260D712103, 0x81A57C16DBCF555F, 0x43B831CD0347C826, 0x01F22F1A11A5569F⟩,
   ⟨0x05E5635A21D9AE61, 0x64BEFEF28CC970F2, 0x613670957BC46611, 0xB87C5A554FD00ECB, 0x8C3EE88A1CCF32C8⟩,
   ⟨0x940C7922AE3A2614, 0x1841F924A2C509E4, 0x16F53526E70465C2, 0x75F644E97F30A13B,
    0xEAF1FF7B5CECA249⟩⟩) := by decide +kernel

/-! ## Sponge and hash controller -/

/-- V40. -/
theorem test_padding_V40 : padding 0 136 = 0x01 :: List.replicate 134 0 ++ [0x80] ∧
    padding 134 136 = [0x01, 0x80] ∧ padding 135 136 = [0x81] ∧ padding 271 136 = [0x81] ∧
    padding 298 136 = 0x01 :: List.replicate 108 0 ++ [0x80] := by decide +kernel
/-- R252: the message is what follows the length field in the operand buffer. -/
theorem test_pad : after (·.work.P) (exec .pad
    { State.reset with operand := Memory.ofBytes ([0x03, 0, 0, 0, 0, 0, 0, 0] ++ foo) }) =
      some (foo ++ 0x01 :: List.replicate 131 0 ++ [0x80]) := by decide +kernel
/-- V41. -/
theorem test_absorb_V41 : after (·.S.y0) (exec .absorb (onP (0x01 :: List.replicate 134 0 ++ [0x80]))) =
    some ⟨0x3C23F7860146D2C5, 0xC003C7DCB27D7E92, 0x3B2782CA53B600E5, 0x70A4855D04D8FA7B,
      (keccakF (xorBlock (Grid.fill 0) (0x01 :: List.replicate 134 0 ++ [0x80]))).get 4 0⟩ := by
  decide +kernel
theorem test_absorb_V41_fault : after (fun t => (t.status,
    t.S)) (exec .absorb (onP (List.replicate 135 0))) =
    some (0x0031, Grid.fill 0) := by decide +kernel
/-- V43, V1: the digest of the state of V41. -/
theorem test_squeeze_V43 : after (·.response.bytes) (exec .squeeze
    { State.reset with S := rowGrid ⟨0x3C23F7860146D2C5, 0xC003C7DCB27D7E92, 0x3B2782CA53B600E5,
      0x70A4855D04D8FA7B, 0xFFFFFFFFFFFFFFFF⟩ 0 }) =
    some [0xc5, 0xd2, 0x46, 0x01, 0x86, 0xf7, 0x23, 0x3c, 0x92, 0x7e, 0x7d, 0xb2, 0xdc, 0xc7, 0x03,
    0xc0, 0xe5, 0x00, 0xb6, 0x53, 0xca, 0x82, 0x27, 0x3b, 0x7b, 0xfa, 0xd8, 0x04, 0x5d, 0x85, 0xa4,
    0x70] := by decide +kernel
/-- V52. -/
theorem test_finalize_V52 : after (·.tx) (exec .finalize State.reset) = some [List.replicate 32 0] := by
  decide +kernel
/-- V54. -/
theorem test_new_V54 : after (fun t => (t.S,
    t.tx)) (exec .new { State.reset with S := Grid.fill 0x1 }) =
    some (Grid.fill 0, [[]]) := by decide +kernel
/-- V50, in a build whose limit is 16. -/
theorem test_ingest_V50 : (after (·.S) (ingestWith 16 3 foo State.reset)).map
    (fun a => [a.get 0 0, a.get 1 0, a.get 2 0, a.get 3 0]) =
      some [0x1BAF529764A0B141, 0xEE6E55A129DCB328, 0x537F1F3A4C4A1E78, 0x4D8C09DE34A80FF9] := by
  decide +kernel
theorem test_ingest_V50_fault : after (fun t => (t.status, t.S)) (ingestWith 16 17 [] State.reset) =
    some (0x0081, Grid.fill 0) := by decide +kernel
/-- V1 and V2. -/
theorem test_keccak256_V1 : keccak256 [] = [0xc5, 0xd2, 0x46, 0x01, 0x86, 0xf7, 0x23, 0x3c, 0x92,
    0x7e, 0x7d, 0xb2, 0xdc, 0xc7, 0x03, 0xc0, 0xe5, 0x00, 0xb6, 0x53, 0xca, 0x82, 0x27, 0x3b, 0x7b,
    0xfa, 0xd8, 0x04, 0x5d, 0x85, 0xa4, 0x70] := by
  decide +kernel
theorem test_keccak256_V2 : keccak256 (foo ++ bar) =
    [0x38, 0xd1, 0x8a, 0xcb, 0x67, 0xd2, 0x5c, 0x8b, 0xb9, 0x94, 0x27, 0x64, 0xb6, 0x2f, 0x18,
    0xe1, 0x70, 0x54, 0xf6, 0x6a, 0x81, 0x7b, 0xd4, 0x29, 0x54, 0x23, 0xad, 0xf9, 0xed, 0x98, 0x87,
    0x3e] := by
  decide +kernel
/-- V42, 136 bytes of `61`: two blocks. -/
theorem test_keccak256_V42 : keccak256 (List.replicate 136 0x61) =
    [0xa6, 0xc4, 0xd4, 0x03, 0x27, 0x9f, 0xe3, 0xe0, 0xaf, 0x03, 0x72, 0x9c, 0xaa, 0xda, 0x83,
    0x74, 0xb5, 0xca, 0x54, 0xd8, 0x06, 0x53, 0x29, 0xa3, 0xeb, 0xca, 0xeb, 0x4b, 0x60, 0xaa, 0x38,
    0x6e] := by
  decide +kernel
/-- V51. -/
theorem test_ingest_twice_V51 :
    squeeze (absorb (absorb (Grid.fill 0) (padMessage foo)) (padMessage bar)) =
    [0x0a, 0x02, 0x02, 0x12, 0xa8, 0x52, 0x2c, 0x0b, 0x41, 0x15, 0x2f, 0xba, 0x45, 0x67, 0x30,
    0x67, 0x8e, 0xb7, 0x91, 0x60, 0xa4, 0x24, 0xa9, 0x3b, 0xf8, 0x22, 0xe0, 0xa3, 0x6a, 0x83, 0x5e,
    0xde] := by
  decide +kernel

/-! ## The step -/

/-- V60. -/
theorem test_step_illegal_opcode_V60 : after (·.status) (step (received [0x10,
    0x01])) = some 0x1011 := by
  decide +kernel
/-- V62: halted, the block discards a byte. -/
theorem test_step_halted_V62 : after (fun t => (t.status, t.rx, t.tx))
    (step { hosted [.byte 0x01] with status := 0x0941 }) = some (0x0941, [], []) := by decide +kernel
/-- V62: power-on reset is the way out. -/
theorem test_step_reset_V62 : after (fun t => (t.status, t.inReset))
    (step { hosted [.assertReset] with status := 0x0941, S := Grid.fill 1 }) = some (0, true) := by
  decide +kernel
/-- The row words of the table run as the first instruction after reset. -/
theorem test_step_withFetchWord : after (·.tx) (step (State.reset.withFetchWord 8 0x03)) =
    some [List.replicate 32 0] := by decide +kernel

/-! ## The assembler's pseudo-commands (R114) -/

theorem test_assemble_hash : assemble [.hash foo, .finalize] =
    some ([0x01, 0x02, 0x03, 0, 0, 0, 0, 0, 0, 0] ++ foo ++ [0x03, 0x03]) := by decide +kernel
theorem test_expand_xcheck : (AsmLine.xcheck countGrid).expand =
    some [.permuteBin countGrid, .permuteRed ((encGrid13 countGrid).map (BitVec.ofNat 256))] := by
  decide +kernel

/-- The text of program P1, and a line with an operand that does not fit. -/
theorem test_assembleText_P1 : assembleText "HASH \"\"   ; NEW, INGEST, FINALIZE\nFINALIZE\n".toList =
    some [0x01, 0x02, 0, 0, 0, 0, 0, 0, 0, 0, 0x03,
    0x03] ∧ assembleText "DEC13D 256".toList = none := by
  decide +kernel
/-- Program P3's host check, on the grid before the permutations. -/
theorem test_xcheckAgrees : xcheckAgrees (bytesOfGrid64 countGrid) (bytesOfGrid256 (encGrid13 countGrid)) = true := by
  decide +kernel

/-! ## Witnesses: the hypotheses of each statement are met -/

theorem limit_zero : (0 : BitVec 64) ≤ Config.maxMessageBytes := by simp [BitVec.le_def]

theorem wf_ingest_empty : (Instr.ingest 0 []).wf = true := by
  simp [Instr.wf, ingestOk]

/-- DecodeOfEncode: one instruction of each level, at the edge of its operand. -/
theorem witness_DecodeOfEncode : (Instr.ingest 0 []).wf = true ∧ (Instr.roundRed 23).wf = true :=
  ⟨wf_ingest_empty, rfl⟩

theorem witness_EncodeOfDecode : decodeFrame [0x08, 0xff,
    0x01] = .command (.dec13d 0xff) [0xff] [0x01] ∧
    decodeUop 0b1011101110 = .ok (.roundRed 23) := ⟨rfl, rfl⟩

theorem running_received (bs : List Byte) : (received bs).running :=
  ⟨rfl, rfl, (by decide : faultBit 0 = false)⟩
theorem running_sequenced (w : UopWord) : (sequenced w).running :=
  ⟨rfl, rfl, (by decide : faultBit 0 = false)⟩

theorem witness_StepRunsTheDecodedInstruction :
    ((received [0x09, 0x07, 0x01]).running ∧ (received [0x09, 0x07, 0x01]).sequencer = [] ∧
      decodeFrame (received [0x09, 0x07, 0x01]).rx = .command (.dec9d 7) [0x07] [0x01]) ∧
    ((sequenced 0x001).running ∧ (sequenced 0x001).sequencer = [0x001] ∧ decodeUop 0x001 = .ok .rho) :=
  ⟨⟨running_received _, rfl, rfl⟩, running_sequenced _, rfl, rfl⟩

theorem witness_ReservedWordsRaiseInternalAssert :
    (sequenced 0x3FF).running ∧ (sequenced 0x3FF).sequencer = [0x3FF] ∧
      ∃ why, decodeUop 0x3FF = .error why := ⟨running_sequenced _, rfl, _, rfl⟩

theorem witness_UnassignedOpcodeRaisesIllegalCommand :
    ((received [0x00]).running ∧ (received [0x00]).rx = (0x00 : Byte) :: [] ∧ (0x00 : Byte).toNat = 0x00) ∧
    ((received [0x0C, 0x01]).running ∧ (received [0x0C, 0x01]).rx = (0x0C : Byte) :: [0x01] ∧
      0x0C ≤ (0x0C : Byte).toNat) := ⟨⟨running_received _, rfl, rfl⟩, running_received _, rfl,
    by decide⟩

theorem witness_BlockWaitsForTheWholeFrame :
    ((received [0x08]).running ∧ decodeFrame (received [0x08]).rx = .wait ∧ (received [0x08]).inbox = []) ∧
    ((hosted [.byte 0x01]).running ∧ decodeFrame (hosted [.byte 0x01]).rx = .wait ∧
      (hosted [.byte 0x01]).inbox = [.byte 0x01]) :=
  ⟨⟨running_received _, rfl, rfl⟩, ⟨rfl, rfl, rfl⟩, rfl, rfl⟩

theorem witness_BlockWaitsForTheWholeFrame_lengths : ((0x05 : Byte).toNat, 800) ∈ [(0x01, 0), (0x03, 0),
    (0x04, 200), (0x05, 800), (0x06, 8), (0x07, 8), (0x08, 1), (0x09, 1), (0x0A, 32), (0x0B,
    32)] := by decide

theorem witness_HostBytesRunTheCommand :
    (hosted [.byte 0x08, .byte 0x05, .byte 0x03]).inReset = false ∧
    (hosted [.byte 0x08, .byte 0x05, .byte 0x03]).halted = false ∧ (Instr.dec13d 5).wf = true ∧
    encode (.dec13d 5) = .frame (0x08 :: [0x05]) ∧
    (hosted [.byte 0x08, .byte 0x05, .byte 0x03]).inbox =
      ([0x08, 0x05] : List Byte).map .byte ++ [.byte 0x03] ∧
    ([.byte 0x03] : List HostEvent).head? ≠ some .assertReset := ⟨rfl, rfl, rfl, rfl, rfl, by decide⟩

theorem witness_PowerOnResetAtAnyTime :
    ({ hosted [.assertReset] with status := 0x0941 } : State).inbox = [.assertReset] := rfl

theorem witness_BytesDuringResetAreDiscarded :
    ({ hosted [.byte 0x01] with inReset := true } : State).inReset = true ∧
    ({ hosted [.byte 0x01] with inReset := true } : State).inbox = [.byte 0x01] ∧
    ({ hosted [.releaseReset] with inReset := true } : State).inbox = [.releaseReset] := ⟨rfl, rfl, rfl⟩

theorem good_reset : Good State.reset := ⟨by decide, wf_nil, wf_nil, by decide⟩

theorem witness_StepKeepsGood : Good State.reset ∧ step State.reset = .next State.reset := ⟨good_reset, rfl⟩

theorem witness_FramesNeverRaiseInternalCauses :
    FrameState State.reset ∧ step State.reset = .next State.reset :=
  ⟨⟨rfl, by unfold internalCause; decide⟩, rfl⟩

theorem witness_HaltedBlockRunsNothingUntilReset :
    ({ hosted [.byte 0x01, .pause] with status := 0x0941 } : State).halted = true ∧
    HostEvent.assertReset ∉ ({ hosted [.byte 0x01, .pause] with status := 0x0941 } : State).inbox ∧
    ({ hosted [.assertReset] with status := 0x0941 } : State).halted = true ∧
    ({ hosted [.assertReset] with status := 0x0941 } : State).inbox = [.assertReset] :=
  ⟨rfl, by decide, rfl, rfl⟩

/-- FaultEntryIsAllOrNothing: reserved bits 0, an instruction that completes and one that faults. -/
theorem witness_FaultEntryIsAllOrNothing : State.reset.status.toNat / 2 % 8 = 0 ∧
    (∃ t, exec (.dec9d 8) State.reset = .next t ∧ t.status = State.reset.status) ∧
    (∃ t, exec (.dec9d 9) State.reset = .next t ∧ t.status ≠ State.reset.status) :=
  ⟨rfl, ⟨_, rfl, rfl⟩, _, rfl, by decide⟩

theorem witness_OnlyHashCommandsWriteS : (∃ t, exec .finalize State.reset = .next t) ∧
    Instr.finalize ≠ .new ∧ (∀ len msg, Instr.finalize ≠ .ingest len msg) ∧ Instr.finalize ≠ .absorb :=
  ⟨⟨_, rfl⟩, by simp, by simp, by simp⟩

theorem witness_StandaloneCommandsIgnoreS : ∃ t₁ t₂,
    exec (.dec13d 12) State.reset = .next t₁ ∧
    exec (.dec13d 12) { State.reset with S := Grid.fill 1 } = .next t₂ ∧
    State.reset.tx = ({ State.reset with S := Grid.fill 1 } : State).tx := ⟨_, _, rfl, rfl, rfl⟩

theorem witness_TransientStateIsNotObservable : (received [0x03]).sequencer = [] := rfl

theorem witness_IngestAbsorbsThePaddedMessage : ([] : List Byte).length = (0 : BitVec 64).toNat ∧
    (0 : BitVec 64) ≤ Config.maxMessageBytes := ⟨rfl, limit_zero⟩

theorem witness_OverlongIngestRaisesMsgTooLong : (16 : BitVec 64) < 17 := by decide

theorem witness_PaddingRule : 136 - 135 % 136 = 1 ∧ 136 - 134 % 136 ≠ 1 ∧ 0 < 136 ∧
    (0 < 1 ∧ 1 < 136 - 0 % 136 - 1) ∧ (0 < 134 ∧ 134 < 136 - 0 % 136 - 1) := by decide

theorem witness_AbsorbIsBlockwise : (List.replicate 136 (0x61 : Byte)).length = 136 ∧ 135 < 136 ∧ 136 < 200 ∧
    199 < 200 := by decide +kernel

/-- FinalizeIsIdempotent: three commands between the two, one of them a FINALIZE. -/
theorem witness_FinalizeIsIdempotent : State.reset.halted = false ∧
    (∀ i ∈ [Instr.dec9d 8, .finalize, .enc13 5], i ≠ .new ∧ (∀ len msg,
    i ≠ .ingest len msg) ∧ i ≠ .absorb) ∧
    ∃ t u v, exec .finalize State.reset = .next t ∧
      Completes [.dec9d 8, .finalize, .enc13 5] t u ∧ exec .finalize u = .next v :=
  ⟨rfl, by simp, _, _, _, rfl, ⟨_, rfl, rfl, _, rfl, rfl, _, rfl, rfl, rfl⟩, rfl⟩

theorem witness_FinalizeOfZeroStateIsZero : (∀ x y, State.reset.S.get x y = 0) ∧
    ∃ t, exec .new State.reset = .next t := ⟨by decide, _, rfl⟩

theorem witness_HashCommandsComputeKeccak256 : ([] : List Byte).length = (0 : BitVec 64).toNat ∧
    (0 : BitVec 64) ≤ Config.maxMessageBytes := ⟨rfl, limit_zero⟩

theorem witness_IngestIsNotIncremental : ([] : List Byte).length = (0 : BitVec 64).toNat ∧
    (0 : BitVec 64) ≤ Config.maxMessageBytes := ⟨rfl, limit_zero⟩

theorem witness_AbsorbUpdatesSOrRaises : (onP (List.replicate 136 0)).work.P.length % 136 = 0 ∧
    (onP (List.replicate 135 0)).work.P.length % 136 ≠ 0 := by decide +kernel

theorem witness_IngestIsPadThenAbsorb : ([] : List Byte).length = (0 : BitVec 64).toNat ∧
    (0 : BitVec 64) ≤ Config.maxMessageBytes ∧
    ({ State.reset with operand := Memory.ofBytes (leBytes64 0 ++ []) } : State).operand =
      Memory.ofBytes (leBytes64 0 ++ []) := ⟨rfl, limit_zero, rfl⟩

theorem witness_ThetaMixesColumnsAndChiMixesRows : ∀ x : Fin 5,
    (columnParity (onA countGrid).work.A).get x =
      (onA countGrid).work.A.get x 0 ^^^ (onA countGrid).work.A.get x 1 ^^^ (onA countGrid).work.A.get x 2 ^^^
        (onA countGrid).work.A.get x 3 ^^^ (onA countGrid).work.A.get x 4 := by decide +kernel

theorem witness_IotaInjectsTheRoundConstant : (23 : BitVec 5).toNat < 24 ∧ 24 ≤ (24 : BitVec 5).toNat := by decide

theorem witness_RoundIsTheFiveSteps : (23 : BitVec 5).toNat < 24 ∧ 24 ≤ (24 : BitVec 5).toNat := by decide

theorem witness_KeccakFIsTwentyFourRoundWords :
    ∀ x y, canonical 13 ((onQ (Grid.fill (13 ^ 63))).work.Q.get x y) = true := by decide +kernel

theorem witness_StepsActOnBitElements : 0 < 64 ∧ 63 < 64 := by decide

/-- The largest digits that decode and the smallest that do not. -/
theorem witness_DigitDecodersRespondOrRaise : (12 : Byte).toNat ≤ 12 ∧ 12 < (13 : Byte).toNat ∧
    (8 : Byte).toNat ≤ 8 ∧ 8 < (9 : Byte).toNat := by decide

/-- The largest lanes that decode and the smallest that do not. -/
theorem witness_LaneDecodersRespondOrRaise :
    (BitVec.ofNat 256 (13 ^ 64 - 1)).toNat < 13 ^ 64 ∧ 13 ^ 64 ≤ (BitVec.ofNat 256 (13 ^ 64)).toNat ∧
    (BitVec.ofNat 256 (9 ^ 64 - 1)).toNat < 9 ^ 64 ∧ 9 ^ 64 ≤ (BitVec.ofNat 256 (9 ^ 64)).toNat := by
  decide +kernel

theorem witness_DigitLaws : (((List.replicate 12 true).map Bool.toNat).sum ≤ 12) ∧ 6 ≤ 6 := by decide

theorem witness_CanonicalLanesAreEncodings : canonical 13 (13 ^ 63) = true ∧
    13 ^ 63 = encLane 13 0x8000000000000000 := by decide +kernel

theorem witness_RedundantStepsAreExactSums : ∀ x : Fin 5,
    (columnSum (onQ (Grid.fill 7)).work.Q).get x =
      (onQ (Grid.fill 7)).work.Q.get x 0 + (onQ (Grid.fill 7)).work.Q.get x 1 +
      (onQ (Grid.fill 7)).work.Q.get x 2 + (onQ (Grid.fill 7)).work.Q.get x 3 +
      (onQ (Grid.fill 7)).work.Q.get x 4 := by decide +kernel

theorem witness_Iota9AddsTwiceTheConstant : (23 : BitVec 5).toNat < 24 ∧ 24 ≤ (24 : BitVec 5).toNat := by decide

theorem witness_Rho13to9FoldsAndRotates :
    (∀ x y, (onQ (Grid.fill (13 ^ 65 - 1))).work.Q.get x y < 13 ^ 65) ∧
    ∃ x y, 13 ^ 65 ≤ (onQ (oneLane 24 (13 ^ 65) 0)).work.Q.get x y := by decide +kernel

theorem witness_Conv9to13ReencodesDigits :
    (∀ x y, (onQ (Grid.fill (9 ^ 64 - 1))).work.Q.get x y < 9 ^ 64) ∧
    ∃ x y, 9 ^ 64 ≤ (onQ (oneLane 24 (9 ^ 64) 0)).work.Q.get x y := by decide +kernel

/-- The first grid is canonical, the second is not. -/
theorem witness_RoundRedIsTheSixSteps : (23 : BitVec 5).toNat < 24 ∧ 24 ≤ (24 : BitVec 5).toNat ∧
    (∀ x y, (theta13 (onQ (Grid.fill (13 ^ 63))).work.Q).get x y < 13 ^ 65) ∧
    ∃ x y, 13 ^ 65 ≤ (theta13 (onQ (Grid.fill (13 ^ 64))).work.Q).get x y := by decide +kernel

theorem witness_RoundRedIsRoundOfTheDecodedGrid : (23 : BitVec 5).toNat < 24 ∧
    (onQ (countGrid.map (encLane 13))).work.Q = countGrid.map (encLane 13) := ⟨by decide, rfl⟩

/-- ThetaDigitBounds and RedundantLaneWidths: the all-ones grid, which reaches the bounds. -/
theorem witness_ThetaDigitBounds : ∀ x y,
    canonical 13 ((Grid.fill (encLane 13 (BitVec.allOnes 64))).get x y) = true := by decide +kernel

/-- Base9DigitBounds and RedundantLaneWidths. -/
theorem witness_Base9DigitBounds : ∀ x y,
    canonical 9 ((Grid.fill (encLane 9 (BitVec.allOnes 64))).get x y) = true := by decide +kernel

theorem witness_RedundantLaneWidths :
    (∀ x y, canonical 13 ((Grid.fill (encLane 13 (BitVec.allOnes 64))).get x y) = true) ∧
    ∀ x y, canonical 9 ((Grid.fill (encLane 9 (BitVec.allOnes 64))).get x y) = true :=
  ⟨witness_ThetaDigitBounds, witness_Base9DigitBounds⟩

theorem witness_EnginesAreEquivalent : 0 < 24 ∧ 23 < 24 := by decide

theorem witness_PermuteRedRespondsWithEncodedKeccakF :
    redLanes ((encGrid13 countGrid).map (BitVec.ofNat 256)) = countGrid.map (encLane 13) := by decide +kernel

/-- The lowest lane of V35's third fault grid, and the highest possible one. -/
theorem witness_PermuteRedRejectsNonCanonicalLanes :
    (canonical 13 ((oneLane 7 (2 : RedOperand) 0).get 2 1).toNat = false ∧
      ∀ x' y', laneIndex x' y' < laneIndex 2 1 →
        canonical 13 ((oneLane 7 (2 : RedOperand) 0).get x' y').toNat = true) ∧
    (canonical 13 ((oneLane 24 (2 : RedOperand) 0).get 4 4).toNat = false ∧
      ∀ x' y', laneIndex x' y' < laneIndex 4 4 →
        canonical 13 ((oneLane 24 (2 : RedOperand) 0).get x' y').toNat = true) := by decide +kernel

end Sys2Proof.Tests
end

/-! # 10_state.md: the invariant of every step, and what is independent of what

The invariant `Good` at reset and along every step; which instructions write `S`; and that the answer of a
command depends on neither `S` nor the transient state. -/

namespace Sys2Proof.Machine

/-! ## The state after reset -/

theorem good_reset : Good State.reset := ⟨by decide, wf_nil, wf_nil, by decide⟩

theorem frameState_reset : FrameState State.reset := ⟨rfl, by unfold internalCause; decide⟩

/-- Settles O12: both invariants hold of the literal state after reset. -/
theorem resetIsGood : Obligations.ResetIsGood := ⟨good_reset, frameState_reset⟩

/-! ## Every step keeps the invariant -/

theorem Cause.code_ne_zero (c : Cause) : c.code ≠ 0#4 := by cases c <;> decide

/-- The fault latch of a cause with its INFO is a legal STATUS: the reserved bits are not written, and no
cause has the code 0 (60_exceptions.md R310, R312). -/
theorem statusLegal_latchFault {r : Raise} (hr : r.fits) {st : BitVec 16} (hst : statusLegal st = true) :
    statusLegal (latchFault r st) = true := by
  simp only [statusLegal, Bool.and_eq_true, beq_iff_eq] at hst
  obtain ⟨⟨hres, -⟩, -⟩ := hst
  have hfits : infoFits r.cause.code r.info = true := hr
  simp [statusLegal, hres, r.cause.code_ne_zero, hfits]

theorem Good.raise {s : State} (hs : Good s) {r : Raise} (hr : r.fits) : Good (s.raise r) :=
  ⟨statusLegal_latchFault hr hs.status, wf_nil, wf_nil, hs.counter⟩

theorem Good.completed {s t : State} (hs : Good s) (h : Completed s t) : Good t :=
  ⟨h.status ▸ hs.status, h.operand ▸ hs.operand, h.response hs.response, h.counter hs.counter⟩

/-- However an instruction ends, a good state becomes a good state. -/
theorem Good.exec {s t : State} {i : Instr} (hs : Good s) (h : exec i s = .next t) : Good t := by
  rcases exec_ends i s with ⟨u, hu, hc⟩ | ⟨r, hu, hr⟩
  · cases hu.symm.trans h
    exact hs.completed hc
  · cases hu.symm.trans h
    exact hs.raise hr

theorem Good.takeFrame {s : State} (hs : Good s) (operand rest : List Byte) :
    Good (s.takeFrame operand rest) := ⟨hs.status, wf_ofBytes operand, hs.response, hs.counter⟩

/-- Power-on reset differs from the state of `State.reset` in the host's side alone. -/
theorem good_powerOnReset (s : State) : Good s.powerOnReset :=
  ⟨good_reset.status, good_reset.operand, good_reset.response, good_reset.counter⟩

/-- A host event is power-on reset, or touches nothing but the host's side and the arrived bytes. -/
theorem Good.hostEvent {s : State} (hs : Good s) : Good s.hostEvent := by
  rcases hostEvent_cases s with ⟨-, e⟩ | ⟨b, es, -, -, e⟩ | ⟨b, es, -, -, e⟩ | ⟨es, -, e⟩ | ⟨es, -, e⟩ |
    ⟨es, -, e⟩ <;> rw [e]
  case inr.inr.inr.inl => exact good_powerOnReset _
  all_goals exact ⟨hs.status, hs.operand, hs.response, hs.counter⟩

/-- The fault of an unassigned opcode goes with its INFO, the opcode (30_encoding.md R109). -/
theorem fits_illegalCommand {bs : List Byte} {op : Byte} (h : decodeFrame bs = .illegal op) :
    Raise.fits ⟨.illegalCommand, op⟩ := by
  obtain ⟨hop, -⟩ := decodeFrameWith_illegal h
  simp [Raise.fits, infoFits, Cause.code, hop]

/-- Settles O13: a step is an instruction, fault entry or a host event, and each keeps the invariant. -/
theorem stepKeepsGood : Obligations.StepKeepsGood := by
  intro s t hs ht
  rcases step_cases s with ⟨-, h⟩ | ⟨-, ⟨w, ws, i, -, -, h⟩ | ⟨w, ws, why, -, -, h⟩ |
    ⟨i, operand, rest, -, -, h⟩ | ⟨op, -, hop, h⟩ | ⟨-, -, h⟩⟩ <;> rw [h] at ht
  · cases ht; exact hs.hostEvent
  · have hws : Good { s with sequencer := ws } := ⟨hs.status, hs.operand, hs.response, hs.counter⟩
    exact hws.exec ht
  · cases ht; exact hs.raise (by decide : infoFits _ _ = true)
  · exact (hs.takeFrame operand rest).exec ht
  · cases ht; exact hs.raise (fits_illegalCommand hop)
  · cases ht; exact hs.hostEvent

/-! ## Which instructions write `S` -/

/-- The result is a next state with the `S` of `s`. -/
def KeepsS (s : State) (res : Result) : Prop := ∃ t, res = .next t ∧ t.S = s.S

/-- A check in front of an instruction cannot make it write `S`: fault entry does not touch `S`. -/
theorem KeepsS.bind {α : Type} {s : State} (e : Except Raise α) {f : α → Except Raise State}
    (h : ∀ a, KeepsS s (s.conclude (f a))) : KeepsS s (s.conclude (e >>= f)) := by
  cases e with
  | ok a => exact h a
  | error r => exact ⟨s.raise r, rfl, rfl⟩

/-- Every instruction but NEW, INGEST and ABSORB keeps `S`; those with checks by `KeepsS.bind`, the others
because their update of the state does not name `S`. -/
theorem exec_keepsS {i : Instr} (s : State) (hnew : i ≠ .new) (hingest : ∀ len msg, i ≠ .ingest len msg)
    (habsorb : i ≠ .absorb) : KeepsS s (exec i s) := by
  cases i with
  | new => exact absurd rfl hnew
  | ingest len msg => exact absurd rfl (hingest len msg)
  | absorb => exact absurd rfl habsorb
  | finalize | permuteBin _ | enc13 _ | enc9 _ => exact ⟨_, rfl, rfl⟩
  | theta | rho | pi | chi | theta13 | pi9 | chi9 | pad | squeeze => exact ⟨_, rfl, rfl⟩
  | dec13d _ | dec9d _ | dec13l _ | dec9l _ => exact KeepsS.bind _ fun _ => ⟨_, rfl, rfl⟩
  | iota _ | round _ | iota9 _ => exact KeepsS.bind _ fun _ => ⟨_, rfl, rfl⟩
  | rho13to9 | conv9to13 => exact KeepsS.bind _ fun _ => ⟨_, rfl, rfl⟩
  | permuteRed _ | roundRed _ => exact KeepsS.bind _ fun _ => KeepsS.bind _ fun _ => ⟨_, rfl, rfl⟩

/-- Settles O18: by the cases of the instruction in `exec_keepsS`. -/
theorem onlyHashCommandsWriteS : Obligations.OnlyHashCommandsWriteS := by
  intro i s t ht hnew hingest habsorb
  obtain ⟨u, hu, hS⟩ := exec_keepsS s hnew hingest habsorb
  cases hu.symm.trans ht
  exact hS

/-! ## Commands whose answer depends on their operands alone -/

/-- What a standalone command answers is fixed by its operands: one fault, or one response, in every state
(10_state.md R31). Only the transient state that it leaves may vary. -/
def AnswersByOperands (i : Instr) : Prop :=
  (∃ r, ∀ s, exec i s = .next (s.raise r)) ∨
    ∃ bs, ∀ s, ∃ w, exec i s = .next (({ s with work := w } : State).respond bs)

/-- One domain check of the operand, then a response. -/
theorem answersByOperands_of_require {i : Instr} {p : Bool} {c : Cause} {info : Byte} {bs : List Byte}
    (h : ∀ s, exec i s = s.conclude (require p c info >>= fun _ => .ok (s.respond bs))) :
    AnswersByOperands i := by
  cases p with
  | true => exact .inr ⟨bs, fun s => ⟨s.work, h s⟩⟩
  | false => exact .inl ⟨⟨c, info⟩, h⟩

theorem answersByOperands_enc13 (w : Lane) : AnswersByOperands (.enc13 w) :=
  .inr ⟨_, fun s => ⟨s.work, rfl⟩⟩

theorem answersByOperands_enc9 (w : Lane) : AnswersByOperands (.enc9 w) :=
  .inr ⟨_, fun s => ⟨s.work, rfl⟩⟩

theorem answersByOperands_dec13d (d : Byte) : AnswersByOperands (.dec13d d) :=
  answersByOperands_of_require fun _ => rfl

theorem answersByOperands_dec9d (d : Byte) : AnswersByOperands (.dec9d d) :=
  answersByOperands_of_require fun _ => rfl

theorem answersByOperands_dec13l (n : RedOperand) : AnswersByOperands (.dec13l n) :=
  answersByOperands_of_require fun _ => rfl

theorem answersByOperands_dec9l (n : RedOperand) : AnswersByOperands (.dec9l n) :=
  answersByOperands_of_require fun _ => rfl

/-- PERMUTE_BIN responds with `KECCAK_F` of its operand grid, which replaces the working grid. -/
theorem answersByOperands_permuteBin (g : Grid Lane) : AnswersByOperands (.permuteBin g) := by
  refine .inr ⟨bytesOfGrid64 (keccakF g), fun s => ⟨({ s.work with A := g }).keccakFStep, ?_⟩⟩
  rw [← Work.keccakFStep_A { s.work with A := g }]
  rfl

/-- PERMUTE_RED of a canonical operand is `KECCAK_F_RED` on the datapath, then a response. -/
theorem exec_permuteRed_of_requireCanonical {g : Grid RedOperand} (h : requireCanonical (redLanes g) = .ok ())
    (s : State) : exec (.permuteRed g) s = s.conclude
      (internally ({ s.work with Q := redLanes g } : Work).keccakFRedStep >>= fun w =>
        .ok (({ s with work := w } : State).respond (bytesOfGrid256 w.Q))) := by
  change execPermuteRed g s = _
  rw [execPermuteRed, h]
  rfl

/-- PERMUTE_RED: the domain check and `KECCAK_F_RED` are functions of the operand grid. -/
theorem answersByOperands_permuteRed (g : Grid RedOperand) : AnswersByOperands (.permuteRed g) := by
  rcases requireCanonical_cases (redLanes g) with ⟨hok, -⟩ | ⟨k, hbad, -⟩
  · have hexec := exec_permuteRed_of_requireCanonical hok
    have hstep := fun s : State => Work.keccakFRedStep_cases { s.work with Q := redLanes g }
    cases hq : keccakFRed (redLanes g) with
    | none =>
      refine .inl ⟨⟨.internalAssert, 0⟩, fun s => ?_⟩
      rcases hstep s with ⟨-, hw⟩ | ⟨v, -, hv, -⟩
      · rw [hexec, conclude_internally, hw]
      · cases hq.symm.trans hv
    | some q =>
      refine .inr ⟨bytesOfGrid256 q, fun s => ?_⟩
      rcases hstep s with ⟨hnone, -⟩ | ⟨v, hw, hv, -⟩
      · cases hq.symm.trans hnone
      · cases hq.symm.trans hv
        exact ⟨v, by rw [hexec, conclude_internally, hw]; rfl⟩
  · refine .inl ⟨⟨.redInput, BitVec.ofNat 8 k⟩, fun s => ?_⟩
    change execPermuteRed g s = _
    rw [execPermuteRed, hbad]
    rfl

/-- Settles O19: each of the eight commands has one answer for all states. -/
theorem standaloneCommandsIgnoreS : Obligations.StandaloneCommandsIgnoreS := by
  intro i s₁ s₂ t₁ t₂ hi htx hst h₁ h₂
  have hans : AnswersByOperands i := by
    rcases hi with ⟨g, rfl⟩ | ⟨g, rfl⟩ | ⟨w, rfl⟩ | ⟨w, rfl⟩ | ⟨d, rfl⟩ | ⟨d, rfl⟩ | ⟨n, rfl⟩ | ⟨n, rfl⟩
    · exact answersByOperands_permuteBin g
    · exact answersByOperands_permuteRed g
    · exact answersByOperands_enc13 w
    · exact answersByOperands_enc9 w
    · exact answersByOperands_dec13d d
    · exact answersByOperands_dec9d d
    · exact answersByOperands_dec13l n
    · exact answersByOperands_dec9l n
  rcases hans with ⟨r, hr⟩ | ⟨bs, hbs⟩
  · cases (hr s₁).symm.trans h₁
    cases (hr s₂).symm.trans h₂
    simp [htx, hst]
  · obtain ⟨w₁, e₁⟩ := hbs s₁
    obtain ⟨w₂, e₂⟩ := hbs s₂
    cases e₁.symm.trans h₁
    cases e₂.symm.trans h₂
    simp [htx, hst]

/-! ## The transient state is hidden -/

/-- Two next states that differ in the transient state alone. -/
def SameButWork (r₁ r₂ : Result) : Prop := ∃ t v, r₁ = .next t ∧ r₂ = .next { t with work := v }

theorem SameButWork.of_eq {r₁ r₂ q₁ q₂ : Result} (h : SameButWork q₁ q₂) (e₁ : r₁ = q₁) (e₂ : r₂ = q₂) :
    SameButWork r₁ r₂ := e₁ ▸ e₂ ▸ h

/-- An operation hides the transient state: from states that differ in it alone it answers states that
differ in it alone (10_state.md R35). -/
def HidesWork (f : State → Result) : Prop :=
  ∀ (s : State) (w : Work), SameButWork (f s) (f { s with work := w })

theorem hidesWork_raise (r : Raise) : HidesWork fun s => .next (s.raise r) :=
  fun _ w => ⟨_, w, rfl, rfl⟩

/-- A command with one answer for all states hides the transient state. -/
theorem AnswersByOperands.hidesWork {i : Instr} (h : AnswersByOperands i) : HidesWork (exec i) := by
  intro s w
  rcases h with ⟨r, hr⟩ | ⟨bs, hbs⟩
  · exact ⟨_, w, hr s, hr _⟩
  · obtain ⟨w₁, e₁⟩ := hbs s
    obtain ⟨w₂, e₂⟩ := hbs { s with work := w }
    exact ⟨_, w₂, e₁, e₂⟩

/-- INGEST takes its message from the instruction and absorbs into a copy of `S`. -/
theorem hidesWork_ingest (len : BitVec 64) (msg : List Byte) : HidesWork (exec (.ingest len msg)) := by
  intro s w
  by_cases h : len ≤ Config.maxMessageBytes
  · obtain ⟨w₁, e₁, -⟩ := ingestWith_ok h msg s
    obtain ⟨w₂, e₂, -⟩ := ingestWith_ok h msg { s with work := w }
    exact ⟨_, w₂, e₁, e₂⟩
  · have hover : Config.maxMessageBytes < len := by simpa using h
    exact ⟨_, w, ingestWith_over hover msg s, ingestWith_over hover msg _⟩

/-- Every host command hides the transient state: those that are encoded as a frame (30_encoding.md
R100). -/
theorem hidesWork_exec_of_frame {i : Instr} {bytes : List Byte} (h : encode i = .frame bytes) :
    HidesWork (exec i) := by
  cases i with
  | new | finalize => exact fun _ w => ⟨_, w, rfl, rfl⟩
  | ingest len msg => exact hidesWork_ingest len msg
  | permuteBin g => exact (answersByOperands_permuteBin g).hidesWork
  | permuteRed g => exact (answersByOperands_permuteRed g).hidesWork
  | enc13 w => exact (answersByOperands_enc13 w).hidesWork
  | enc9 w => exact (answersByOperands_enc9 w).hidesWork
  | dec13d d => exact (answersByOperands_dec13d d).hidesWork
  | dec9d d => exact (answersByOperands_dec9d d).hidesWork
  | dec13l n => exact (answersByOperands_dec13l n).hidesWork
  | dec9l n => exact (answersByOperands_dec9l n).hidesWork
  | _ => cases h

/-- What is taken from a frame of fixed length is assembled from its operand buffer. -/
theorem takeFixed_command {n : Nat} {bs operand rest : List Byte} {f : List Byte → Instr} {i : Instr}
    (h : takeFixed n bs f = .command i operand rest) : i = f operand := by
  rcases takeFixed_cases n bs f with ⟨-, e⟩ | ⟨-, e⟩ <;> cases e.symm.trans h
  rfl

theorem takeIngest_command {limit : BitVec 64} {bs operand rest : List Byte} {i : Instr}
    (h : takeIngest limit bs = .command i operand rest) : ∃ len msg, i = .ingest len msg := by
  rcases takeIngest_cases limit bs with ⟨-, e⟩ | ⟨-, -, e⟩ | ⟨-, -, -, e⟩ | ⟨-, -, e⟩ <;>
    cases e.symm.trans h
  · exact ⟨_, _, rfl⟩
  · exact ⟨_, _, rfl⟩

/-- The frame decoder answers host commands only: the host cannot issue a micro-op (R100). -/
theorem encode_of_decodeFrameWith {limit : BitVec 64} {bs operand rest : List Byte} {i : Instr}
    (h : decodeFrameWith limit bs = .command i operand rest) : ∃ bytes, encode i = .frame bytes := by
  cases bs with
  | nil => cases h
  | cons op bs =>
    rw [decodeFrameWith] at h
    split at h
    case h_2 => obtain ⟨len, msg, rfl⟩ := takeIngest_command h; exact ⟨_, rfl⟩
    case h_12 => cases h
    all_goals rw [takeFixed_command h]; exact ⟨_, rfl⟩

theorem hostEvent_byte_discarded {s : State} {b : Byte} {es : List HostEvent} (hin : s.inbox = .byte b :: es)
    (hq : (s.halted || s.inReset) = true) : s.hostEvent = { s with inbox := es } := by
  simp only [State.hostEvent, hin, if_pos hq]

theorem hostEvent_byte_arrives {s : State} {b : Byte} {es : List HostEvent} (hin : s.inbox = .byte b :: es)
    (hq : ¬ (s.halted || s.inReset) = true) : s.hostEvent = { s with inbox := es, rx := s.rx ++ [b] } := by
  simp only [State.hostEvent, hin, if_neg hq]

/-- A host event does not read the transient state; asserting reset overwrites it. (After the split on the
inbox the second state has it written out, so its event is known by `rfl`.) -/
theorem hidesWork_hostEvent : HidesWork fun s => .next s.hostEvent := by
  intro s w
  rcases hin : s.inbox with _ | ⟨_ | _ | _ | _, es⟩
  · exact ⟨s, w, by simp only [State.hostEvent, hin], by simp only [State.hostEvent, hin]⟩
  · by_cases hq : (s.halted || s.inReset) = true
    · exact ⟨_, w, congrArg _ (hostEvent_byte_discarded hin hq),
        congrArg _ (hostEvent_byte_discarded rfl hq)⟩
    · exact ⟨_, w, congrArg _ (hostEvent_byte_arrives hin hq),
        congrArg _ (hostEvent_byte_arrives rfl hq)⟩
  · refine ⟨_, Work.reset, rfl, ?_⟩
    simp only [State.hostEvent, hin]
    rfl
  · exact ⟨_, w, rfl, by simp only [State.hostEvent, hin]⟩
  · exact ⟨_, w, rfl, by simp only [State.hostEvent, hin]⟩

theorem receive_of_wait {s : State} (h : decodeFrame s.rx = .wait) : s.receive = .next s.hostEvent := by
  simp only [State.receive, h]

theorem receive_of_illegal {s : State} {op : Byte} (h : decodeFrame s.rx = .illegal op) :
    s.receive = .next (s.raise ⟨.illegalCommand, op⟩) := by
  simp only [State.receive, h]

theorem receive_of_command {s : State} {i : Instr} {operand rest : List Byte}
    (h : decodeFrame s.rx = .command i operand rest) : s.receive = exec i (s.takeFrame operand rest) := by
  simp only [State.receive, h]

/-- What the frame decoder starts is the same, since the arrived bytes are, and hides the transient
state. -/
theorem hidesWork_receive : HidesWork State.receive := by
  intro s w
  cases hd : decodeFrame s.rx with
  | wait => exact (hidesWork_hostEvent s w).of_eq (receive_of_wait hd) (receive_of_wait hd)
  | illegal op =>
    exact (hidesWork_raise ⟨.illegalCommand, op⟩ s w).of_eq (receive_of_illegal hd) (receive_of_illegal hd)
  | command i operand rest =>
    obtain ⟨bytes, hi⟩ := encode_of_decodeFrameWith hd
    exact (hidesWork_exec_of_frame hi (s.takeFrame operand rest) w).of_eq (receive_of_command hd)
      (receive_of_command hd)

theorem step_of_stopped {s : State} (h : (s.resetPending || s.inReset || s.halted) = true) :
    step s = .next s.hostEvent := if_pos h

theorem step_of_idle {s : State} (hidle : s.sequencer = [])
    (h : ¬ (s.resetPending || s.inReset || s.halted) = true) : step s = s.receive := by
  rw [step, if_neg h, hidle]

/-- Settles O20: host events and host commands both hide the transient state, and which of them a step
is does not depend on it. -/
theorem transientStateIsNotObservable : Obligations.TransientStateIsNotObservable := by
  intro s w hidle
  by_cases h : (s.resetPending || s.inReset || s.halted) = true
  · exact (hidesWork_hostEvent s w).of_eq (step_of_stopped h) (step_of_stopped h)
  · exact (hidesWork_receive s w).of_eq (step_of_idle hidle h) (step_of_idle hidle h)

end Sys2Proof.Machine

/-! # 20_memory.md: the byte view of the state under absorb

Byte `k` of the state is byte `k % 8` of lane `k / 8` (R73), and a lane is XORed with a whole word of the
block; so the byte view of the XOR needs the bytes of a little-endian word. Absorb runs over the blocks of
the buffer in order, so a block in front is absorbed first. -/

namespace Sys2Proof

/-- Bit `i` of byte `j` is bit `8j + i` of the little-endian integer (R16). -/
theorem testBit_leNat (bs : List Byte) (j : Nat) {i : Nat} (hi : i < 8) :
    (leNat bs).testBit (8 * j + i) = (bs.getD j 0).getLsbD i := by
  induction bs generalizing j with
  | nil => simp [leNat]
  | cons b bs ih =>
    have hsplit : leNat (b :: bs) = 2 ^ 8 * leNat bs + b.toNat := Nat.add_comm _ _
    rw [hsplit, Nat.testBit_two_pow_mul_add _ b.isLt]
    cases j with
    | zero => simp [hi, BitVec.getLsbD]
    | succ j =>
      have hshift : 8 * (j + 1) + i - 8 = 8 * j + i := by omega
      rw [if_neg (by omega), hshift, ih j, List.getD_cons_succ]

/-- Byte `j` of a word is byte `j` of the bytes it was assembled from. -/
theorem extractLsb'_le64 (bs : List Byte) {j : Nat} (hj : j < 8) :
    (le64 bs).extractLsb' (8 * j) 8 = bs.getD j 0 := by
  apply BitVec.eq_of_getLsbD_eq
  intro i hi
  have hin : 8 * j + i < 64 := by omega
  rw [BitVec.getLsbD_extractLsb', le64, BitVec.getLsbD_ofNat, testBit_leNat bs j hi]
  simp [hi, hin]

theorem getD_field (off : Nat) {n j : Nat} (bs : List Byte) (hj : j < n) :
    (field off n bs).getD j 0 = bs.getD (off + j) 0 := by
  simp [field, List.getD_eq_getElem?_getD, hj]

theorem exists_laneIndex {j : Nat} (hj : j < 25) : ∃ x y : Fin 5, laneIndex x y = j :=
  ⟨⟨j % 5, by omega⟩, ⟨j / 5, by omega⟩, by simp only [laneIndex]; omega⟩

theorem Grid.getD_lanes_laneIndex {α : Type} (g : Grid α) (x y : Fin 5) (d : α) :
    g.lanes.getD (laneIndex x y) d = g.get x y := by
  simp [List.getD_eq_getElem?_getD, g.lanes_getElem]

end Sys2Proof

namespace Sys2Proof.Machine

/-- The first 17 lanes are the rate lanes (R255). -/
theorem getD_lanes_xorBlock (a : Grid Lane) (b : List Byte) {j : Nat} (hj : j < 25) :
    (xorBlock a b).lanes.getD j 0 =
      if j < 17 then a.lanes.getD j 0 ^^^ le64 (field (8 * j) 8 b) else a.lanes.getD j 0 := by
  obtain ⟨x, y, rfl⟩ := exists_laneIndex hj
  simp only [Grid.getD_lanes_laneIndex, xorBlock, Grid.get_ofFn]
  rfl

/-- The byte view of the XOR: byte `k` of the block meets byte `k` of the state. -/
theorem stateByte_xorBlock (a : Grid Lane) (b : List Byte) {k : Nat} (hk : k < 200) :
    stateByte (xorBlock a b) k = if k < 136 then stateByte a k ^^^ b.getD k 0 else stateByte a k := by
  have hlane : k / 8 < 25 := by omega
  have hbyte : k % 8 < 8 := Nat.mod_lt k (by decide)
  simp only [stateByte, getD_lanes_xorBlock a b hlane]
  by_cases hrate : k < 136
  · rw [if_pos hrate, if_pos (by omega), BitVec.extractLsb'_xor, extractLsb'_le64 _ hbyte,
      getD_field _ _ hbyte, Nat.div_add_mod]
  · rw [if_neg hrate, if_neg (by omega)]

theorem absorb_nil (a : Grid Lane) : absorb a [] = a := rfl

theorem block_append_zero {b : List Byte} (P : List Byte) (hb : b.length = 136) : block (b ++ P) 0 = b := by
  simp [block, field, Config.rateBytes, ← hb]

theorem block_append_succ {b : List Byte} (P : List Byte) (hb : b.length = 136) (k : Nat) :
    block (b ++ P) (k + 1) = block P k := by
  have hoff : Config.rateBytes * (k + 1) = b.length + Config.rateBytes * k := by
    rw [hb, Config.rateBytes]; omega
  rw [block, block, field, field, hoff, List.drop_length_add_append]

/-- A block in front of the buffer is absorbed first; block `k` of the rest is block `k + 1`. -/
theorem absorb_append {b : List Byte} (a : Grid Lane) (P : List Byte) (hb : b.length = 136) :
    absorb a (b ++ P) = absorb (keccakF (xorBlock a b)) P := by
  have hcount : (b ++ P).length / Config.rateBytes = P.length / Config.rateBytes + 1 := by
    rw [List.length_append, hb, Config.rateBytes]; omega
  have hfirst : absorbBlock (b ++ P) a 0 = keccakF (xorBlock a b) := by
    rw [absorbBlock, block_append_zero P hb]
  have hrest (a' : Grid Lane) (k : Nat) : absorbBlock (b ++ P) a' (k + 1) = absorbBlock P a' k := by
    rw [absorbBlock, absorbBlock, block_append_succ P hb]
  rw [absorb, hcount, List.range_succ_eq_map, List.foldl_cons, List.foldl_map, hfirst]
  simp only [Nat.succ_eq_add_one, hrest, absorb]

/-- Settles O25: the XOR by bytes, and absorb by recursion on the blocks. -/
theorem absorbIsBlockwise : Obligations.AbsorbIsBlockwise :=
  ⟨fun a b _ _ hk => stateByte_xorBlock a b hk, absorb_nil, fun a _ P hb => absorb_append a P hb⟩

end Sys2Proof.Machine

/-! # 30_encoding.md: the two decoders, the encoder, and the step that runs what is decoded

Each decoder is characterised once, as an equivalence: it answers an instruction exactly when that is
well-formed and encoded by what was read (`decodeFrame_eq_command_iff`, `decodeUop_eq_ok_iff`). Both round
trips follow, and so does that a frame cut short waits: an answer would stand whatever bytes follow, but
the whole frame has another one. -/

namespace Sys2Proof

/-! ## Frames -/

/-- A fixed-length operand buffer is the first `n` of the bytes (R103). -/
theorem takeFixed_eq_command_iff {n : Nat} {bs o r : List Byte} {f : List Byte → Instr} {i : Instr} :
    takeFixed n bs f = .command i o r ↔ o.length = n ∧ bs = o ++ r ∧ f o = i := by
  constructor
  · intro h
    rcases takeFixed_cases n bs f with ⟨-, e⟩ | ⟨hn, e⟩ <;> cases e.symm.trans h
    exact ⟨List.length_take_of_le hn, (List.take_append_drop n bs).symm, rfl⟩
  · rintro ⟨rfl, rfl, rfl⟩
    simp [takeFixed]

theorem takeFixed_eq_wait_iff {n : Nat} {bs : List Byte} {f : List Byte → Instr} :
    takeFixed n bs f = .wait ↔ bs.length < n := by
  rcases takeFixed_cases n bs f with ⟨h, e⟩ | ⟨h, e⟩ <;> simp [e, h]

/-- What INGEST takes: the length field, and the message that goes with it under the limit (R103, R282). -/
theorem takeIngest_eq_command_iff {limit : BitVec 64} {bs o r : List Byte} {i : Instr} :
    takeIngest limit bs = .command i o r ↔
      ∃ len msg, ingestOk limit len msg = true ∧ i = .ingest len msg ∧ o = leBytes64 len ++ msg ∧
        bs = o ++ r := by
  constructor
  · intro h
    rcases takeIngest_cases limit bs with ⟨-, e⟩ | ⟨h8, hover, e⟩ | ⟨-, -, -, e⟩ | ⟨hall, hle, e⟩ <;>
      cases e.symm.trans h
    · refine ⟨_, [], by simp [ingestOk, hover], rfl, ?_, (List.take_append_drop 8 bs).symm⟩
      rw [leBytes64_le64 (List.length_take_of_le h8), List.append_nil]
    · refine ⟨_, _, ?_, rfl, ?_, (List.take_append_drop _ bs).symm⟩
      · rw [ingestOk, if_neg hle, decide_eq_true_eq]
        exact List.length_take_of_le (by rw [List.length_drop]; omega)
      · rw [leBytes64_le64 (List.length_take_of_le (by omega)), List.take_add, field]
  · rintro ⟨len, msg, hok, rfl, rfl, rfl⟩
    have hlen : le64 ((leBytes64 len ++ msg ++ r).take 8) = len := by
      rw [List.append_assoc, List.take_left' (length_leBytes64 len), le64_leBytes64]
    by_cases hover : limit < len
    · obtain rfl : msg = [] := by simpa [ingestOk, hover] using hok
      simp [takeIngest, hover]
    · have hmsg : msg.length = len.toNat := by simpa [ingestOk, hover] using hok
      have hframe : 8 + len.toNat = (leBytes64 len ++ msg).length := by simp [hmsg]
      have hfield : field 8 len.toNat (leBytes64 len ++ msg ++ r) = msg := by
        simp [field, ← hmsg]
      simp only [takeIngest, hlen, if_neg hover, hfield, hframe, List.take_left, List.drop_left]
      simp

theorem takeIngest_eq_wait_iff {limit : BitVec 64} {bs : List Byte} :
    takeIngest limit bs = .wait ↔ bs.length < 8 ∨
      (le64 (bs.take 8) ≤ limit ∧ bs.length < 8 + (le64 (bs.take 8)).toNat) := by
  rw [← BitVec.not_lt]
  rcases takeIngest_cases limit bs with ⟨h, e⟩ | ⟨h, hover, e⟩ | ⟨h, hle, hmsg, e⟩ | ⟨hall, hle, e⟩
  · simp [e, h]
  · simp [e, hover, h]
  · simp [e, hle, hmsg]
  · have h8 : ¬ bs.length < 8 := by omega
    rw [e]
    simp [h8, hall]

/-- An unassigned byte 0 is answered as illegal, whatever follows it (R109). -/
theorem decodeFrame_unassigned {op : Byte} (h : assignedOpcode op = false) (bs : List Byte) :
    decodeFrame (op :: bs) = .illegal op := by
  have hop : ¬ (1 ≤ op.toNat ∧ op.toNat ≤ 11) := by simpa [assignedOpcode] using h
  rw [decodeFrame, decodeFrameWith]
  split
  case h_12 => rfl
  all_goals omega

/-- A frame of fixed length is the encoding of what it decodes to, if that holds for every operand buffer
of its length. -/
theorem frame_of_takeFixed {n : Nat} {op : Byte} {bs o r : List Byte} {f : List Byte → Instr} {i : Instr}
    (h : takeFixed n bs f = .command i o r)
    (henc : ∀ o, o.length = n → (f o).wf = true ∧ encode (f o) = .frame (op :: o)) :
    i.wf = true ∧ ∃ op', op :: bs = op' :: (o ++ r) ∧ encode i = .frame (op' :: o) := by
  obtain ⟨hlen, rfl, rfl⟩ := takeFixed_eq_command_iff.mp h
  obtain ⟨hwf, he⟩ := henc o hlen
  exact ⟨hwf, op, rfl, he⟩

/-- A one-byte operand buffer is its digit (R107). -/
theorem singleton_digitOperand {o : List Byte} (h : o.length = 1) : [digitOperand o] = o := by
  obtain ⟨d, rfl⟩ := List.length_eq_one_iff.mp h
  rfl

theorem encode_of_decodeFrame {bs o r : List Byte} {i : Instr} (h : decodeFrame bs = .command i o r) :
    i.wf = true ∧ ∃ op, bs = op :: (o ++ r) ∧ encode i = .frame (op :: o) := by
  cases bs with
  | nil => cases h
  | cons op bs =>
    rw [decodeFrame, decodeFrameWith] at h
    split at h
    case h_12 => cases h
    all_goals rename_i hop; obtain rfl := byte_eq_ofNat hop
    case h_1 | h_3 =>
      refine frame_of_takeFixed h fun o ho => ?_
      obtain rfl := List.length_eq_zero_iff.mp ho
      exact ⟨rfl, rfl⟩
    case h_2 =>
      obtain ⟨len, msg, hok, rfl, rfl, rfl⟩ := takeIngest_eq_command_iff.mp h
      exact ⟨hok, _, rfl, rfl⟩
    case h_4 => exact frame_of_takeFixed h fun o ho => ⟨rfl, by simp [encode, bytesOfGrid64_gridOfBytes64 ho]⟩
    case h_5 => exact frame_of_takeFixed h fun o ho => ⟨rfl, by simp [encode, bytesOfGrid256_gridOfBytes256 ho]⟩
    case h_6 | h_7 => exact frame_of_takeFixed h fun o ho => ⟨rfl, by simp [encode, leBytes64_le64 ho]⟩
    case h_8 | h_9 => exact frame_of_takeFixed h fun o ho => ⟨rfl, by simp [encode, singleton_digitOperand ho]⟩
    case h_10 | h_11 => exact frame_of_takeFixed h fun o ho => ⟨rfl, by simp [encode, leBytes256_le256 ho]⟩

theorem decodeFrame_of_encode {op : Byte} {o : List Byte} {i : Instr} (hwf : i.wf = true)
    (h : encode i = .frame (op :: o)) (r : List Byte) : decodeFrame (op :: (o ++ r)) = .command i o r := by
  cases i <;> cases h <;> simp only [decodeFrame, decodeFrameWith, BitVec.reduceToNat]
  case ingest len msg => exact takeIngest_eq_command_iff.mpr ⟨len, msg, hwf, rfl, rfl, rfl⟩
  case permuteBin g =>
    exact takeFixed_eq_command_iff.mpr ⟨by simp, rfl, congrArg _ (gridOfBytes64_bytesOfGrid64 g)⟩
  case permuteRed g =>
    exact takeFixed_eq_command_iff.mpr ⟨by simp, rfl, congrArg _ (gridOfBytes256_bytesOfGrid256 g)⟩
  case enc13 w | enc9 w => exact takeFixed_eq_command_iff.mpr ⟨by simp, rfl, congrArg _ (le64_leBytes64 w)⟩
  case dec13l n | dec9l n => exact takeFixed_eq_command_iff.mpr ⟨by simp, rfl, congrArg _ (le256_leBytes256 n)⟩
  all_goals exact takeFixed_eq_command_iff.mpr ⟨rfl, rfl, rfl⟩

/-- The frame decoder of the block answers a command exactly when that is well-formed and the bytes begin
with its frame (R103, R108). -/
theorem decodeFrame_eq_command_iff {bs o r : List Byte} {i : Instr} :
    decodeFrame bs = .command i o r ↔
      i.wf = true ∧ ∃ op, bs = op :: (o ++ r) ∧ encode i = .frame (op :: o) := by
  refine ⟨encode_of_decodeFrame, ?_⟩
  rintro ⟨hwf, op, rfl, he⟩
  exact decodeFrame_of_encode hwf he r

/-- A frame has a byte 0. -/
theorem encode_ne_frame_nil (i : Instr) : encode i ≠ .frame [] := by
  cases i <;> simp [encode]

/-! ## Micro-op words -/

theorem plainUop_eq_ok_iff {w : UopWord} {i j : Instr} :
    plainUop w i = .ok j ↔ rndField w = 0 ∧ i = j := by
  by_cases h0 : rndField w = 0#5
  · simp [plainUop, Config.numRounds, h0]
  · by_cases h24 : 24 ≤ (rndField w).toNat <;> simp [plainUop, Config.numRounds, h24, h0]

theorem roundUop_eq_ok_iff {w : UopWord} {f : BitVec 5 → Instr} {j : Instr} :
    roundUop w f = .ok j ↔ roundIndexOk (rndField w) = true ∧ f (rndField w) = j := by
  unfold roundUop
  split <;> simp_all [roundIndexOk]

/-- A word is known by its two fields (R110). -/
theorem eq_uopWord {w : UopWord} {n : Nat} (h : (uopField w).toNat = n) :
    w = uopWord (BitVec.ofNat 5 n) (rndField w) := by
  rw [← h, BitVec.ofNat_toNat, BitVec.setWidth_eq, Laws.uopWord_fields]

theorem encode_of_decodeUop {w : UopWord} {i : Instr} (h : decodeUop w = .ok i) :
    i.wf = true ∧ encode i = .uop w := by
  rw [decodeUop] at h
  split at h
  case h_17 => cases h
  all_goals rename_i hu; have hw := eq_uopWord hu
  case h_5 | h_6 | h_11 | h_13 =>
    obtain ⟨hrnd, rfl⟩ := roundUop_eq_ok_iff.mp h
    exact ⟨hrnd, congrArg _ hw.symm⟩
  all_goals
    obtain ⟨hrnd, rfl⟩ := plainUop_eq_ok_iff.mp h
    rw [hrnd] at hw
    exact ⟨rfl, congrArg _ hw.symm⟩

theorem decodeUop_of_encode {w : UopWord} {i : Instr} (hwf : i.wf = true) (h : encode i = .uop w) :
    decodeUop w = .ok i := by
  cases i <;> cases h
  case iota rnd | round rnd | iota9 rnd | roundRed rnd =>
    rw [decodeUop, Laws.uopField_uopWord]
    exact roundUop_eq_ok_iff.mpr (by rw [Laws.rndField_uopWord]; exact ⟨hwf, rfl⟩)
  all_goals rfl

/-- The word decoder answers a micro-operation exactly when that is well-formed and the word is its
encoding (R110, R111). -/
theorem decodeUop_eq_ok_iff {w : UopWord} {i : Instr} :
    decodeUop w = .ok i ↔ i.wf = true ∧ encode i = .uop w :=
  ⟨encode_of_decodeUop, fun ⟨hwf, he⟩ => decodeUop_of_encode hwf he⟩

/-- A micro-op that does not use `rnd` is refused for a nonzero field, in range or not (R110, R112). -/
theorem plainUop_rejects_iff {w : UopWord} {i : Instr} :
    (∃ why, plainUop w i = .error why) ↔ 24 ≤ (rndField w).toNat ∨ rndField w ≠ 0 := by
  by_cases h24 : 24 ≤ (rndField w).toNat
  · simp [plainUop, Config.numRounds, h24]
  · by_cases h0 : rndField w = 0#5 <;> simp [plainUop, Config.numRounds, h24, h0]

theorem roundUop_rejects_iff {w : UopWord} {f : BitVec 5 → Instr} :
    (∃ why, roundUop w f = .error why) ↔ 24 ≤ (rndField w).toNat := by
  by_cases h24 : 24 ≤ (rndField w).toNat <;> simp [roundUop, Config.numRounds, h24]

/-- The reserved words (R112): an unlisted `uop`, a round index out of range, or a round index on a
micro-op that does not use it. -/
theorem decodeUop_rejects_iff (w : UopWord) : (∃ why, decodeUop w = .error why) ↔
    ((uopField w).toNat ∉ [0x00, 0x01, 0x02, 0x03, 0x04, 0x05, 0x08, 0x09, 0x0A, 0x0B, 0x0C, 0x0D, 0x0E,
        0x10, 0x11, 0x12] ∨
      24 ≤ (rndField w).toNat ∨
      (rndField w ≠ 0 ∧ (uopField w).toNat ∉ [0x04, 0x05, 0x0C, 0x0E])) := by
  rw [decodeUop]
  split
  case h_17 => simp_all
  case h_5 hu | h_6 hu | h_11 hu | h_13 hu => simp [hu, roundUop_rejects_iff]
  all_goals rename_i hu; simp [hu, plainUop_rejects_iff]

/-! ## Round trips -/

/-- Settles O3: the encoding is a frame with nothing after it, or a word, and each decoder answers the
instruction that it encodes. -/
theorem decodeOfEncode : Obligations.DecodeOfEncode := by
  intro i hwf
  rcases he : encode i with (_ | ⟨op, o⟩) | w
  · exact absurd he (encode_ne_frame_nil i)
  · have hd := decodeFrame_of_encode hwf he []
    rw [List.append_nil] at hd
    simp only [decode, hd]
  · simp only [decode, decodeUop_of_encode hwf he]

/-- Settles O4: what each decoder answers is well-formed, and its encoding is what was read. -/
theorem encodeOfDecode : Obligations.EncodeOfDecode :=
  ⟨fun _ _ _ _ => encode_of_decodeFrame, fun _ _ => encode_of_decodeUop⟩

/-- Settles O1: the encoder is evaluated on the examples of R115. -/
theorem encodingExamplesOfTheSpec : Obligations.EncodingExamplesOfTheSpec :=
  ⟨rfl, rfl, rfl, rfl, rfl, rfl⟩

/-- Settles O2: each word is the encoding of its instruction, so it decodes to it. -/
theorem specWordsDecode : Obligations.SpecWordsDecode := by
  have hempty : (Instr.ingest 0 []).wf = true := by simp [Instr.wf, ingestOk]
  exact ⟨decodeOfEncode .new rfl, decodeOfEncode (.ingest 0 []) hempty, decodeOfEncode .finalize rfl,
    decodeOfEncode (.enc9 0x1234) rfl, decodeOfEncode (.dec13d 11) rfl, decodeOfEncode (.dec13l 146) rfl,
    decodeOfEncode .pi rfl, decodeOfEncode (.round 23) rfl, decodeOfEncode .rho13to9 rfl,
    decodeOfEncode (.iota9 1) rfl, decodeOfEncode .absorb rfl⟩

/-! ## Frames cut short -/

/-- What the frame decoder has answered stands, whatever bytes follow. -/
theorem decodeFrame_append_of_command {bs o r : List Byte} {i : Instr} (h : decodeFrame bs = .command i o r)
    (xs : List Byte) : decodeFrame (bs ++ xs) = .command i o (r ++ xs) := by
  obtain ⟨hwf, op, rfl, he⟩ := decodeFrame_eq_command_iff.mp h
  exact decodeFrame_eq_command_iff.mpr ⟨hwf, op, by simp, he⟩

theorem decodeFrame_append_of_illegal {bs : List Byte} {op : Byte} (h : decodeFrame bs = .illegal op)
    (xs : List Byte) : decodeFrame (bs ++ xs) = .illegal op := by
  obtain ⟨hop, rest, rfl⟩ := decodeFrameWith_illegal h
  exact decodeFrame_unassigned hop (rest ++ xs)

/-- While bytes of a whole frame are missing the decoder waits (R108): an answer would leave the missing
bytes after the frame, where nothing is. -/
theorem decodeFrame_wait_of_missing {p q o : List Byte} {i : Instr}
    (h : decodeFrame (p ++ q) = .command i o []) (hq : q ≠ []) : decodeFrame p = .wait := by
  cases hp : decodeFrame p with
  | wait => rfl
  | illegal op => cases (decodeFrame_append_of_illegal hp q).symm.trans h
  | command j o' r =>
    have hrest := (decodeFrame_append_of_command hp q).symm.trans h
    simp [hq] at hrest

end Sys2Proof

namespace Sys2Proof.Machine

/-! ## The step of a running block -/

theorem State.running.not_stopped {s : State} (h : s.running) :
    ¬ (s.resetPending || s.inReset || s.halted) = true := by
  obtain ⟨hpending, hreset, hhalted⟩ := h
  simp [hpending, hreset, hhalted]

theorem step_of_word {s : State} {w : UopWord} {ws : List UopWord} (hrun : s.running)
    (hseq : s.sequencer = w :: ws) : step s = s.issue w ws := by
  rw [step, if_neg hrun.not_stopped, hseq]

theorem step_of_frame {s : State} (hrun : s.running) (hidle : s.sequencer = []) : step s = s.receive :=
  step_of_idle hidle hrun.not_stopped

/-- Settles O5: the step issues the word, or takes the frame. -/
theorem stepRunsTheDecodedInstruction : Obligations.StepRunsTheDecodedInstruction := by
  constructor
  · intro s i operand rest hrun hidle hd
    rw [step_of_frame hrun hidle, receive_of_command hd, State.takeFrame]
  · intro s w ws i hrun hseq hd
    rw [step_of_word hrun hseq, State.issue, hd]

/-- Settles O6: the reserved words by the word decoder's cases, and fault entry of the sequencer. -/
theorem reservedWordsRaiseInternalAssert : Obligations.ReservedWordsRaiseInternalAssert := by
  refine ⟨decodeUop_rejects_iff, ?_⟩
  rintro s w ws hrun hseq ⟨why, hd⟩
  have hstep : step s = .next (s.raise ⟨.internalAssert, 0⟩) := by
    rw [step_of_word hrun hseq, State.issue, hd]
  exact ⟨_, hstep, faulted_raise s _⟩

/-- Settles O7: fault entry of the frame decoder, which has seen byte 0 alone. -/
theorem unassignedOpcodeRaisesIllegalCommand : Obligations.UnassignedOpcodeRaisesIllegalCommand := by
  intro s op rest hrun hidle hrx hop
  have hun : assignedOpcode op = false := by simp [assignedOpcode]; omega
  have hd : decodeFrame s.rx = .illegal op := by rw [hrx, decodeFrame_unassigned hun]
  exact ⟨_, (step_of_frame hrun hidle).trans (receive_of_illegal hd), faulted_raise s _⟩

/-! ## Waiting for the host -/

section Waiting

variable {s : State} (hrun : s.running) (hidle : s.sequencer = []) (hwait : decodeFrame s.rx = .wait)

include hrun hidle hwait

theorem step_of_wait : step s = .next s.hostEvent :=
  (step_of_frame hrun hidle).trans (receive_of_wait hwait)

theorem step_of_wait_silent (hin : s.inbox = []) : step s = .next s := by
  rw [step_of_wait hrun hidle hwait, State.hostEvent, hin]

/-- A byte that the block waits for joins the frame (R101). -/
theorem step_of_wait_byte {b : Byte} {es : List HostEvent} (hin : s.inbox = .byte b :: es) :
    step s = .next { s with inbox := es, rx := s.rx ++ [b] } := by
  have hcollects : ¬ (s.halted || s.inReset) = true := by
    obtain ⟨-, hreset, hhalted⟩ := hrun
    simp [hreset, hhalted]
  rw [step_of_wait hrun hidle hwait, hostEvent_byte_arrives hin hcollects]

end Waiting

/-- Settles O8: the step while waiting, and when each way to take a frame waits. -/
theorem blockWaitsForTheWholeFrame : Obligations.BlockWaitsForTheWholeFrame := by
  refine ⟨fun s hrun hidle hwait => ⟨step_of_wait_silent hrun hidle hwait, fun b es =>
    step_of_wait_byte hrun hidle hwait⟩, rfl, ?_, fun bs => takeIngest_eq_wait_iff⟩
  intro op n bs hmem
  simp only [List.mem_cons, List.not_mem_nil, or_false, Prod.mk.injEq] at hmem
  rcases hmem with ⟨hop, rfl⟩ | ⟨hop, rfl⟩ | ⟨hop, rfl⟩ | ⟨hop, rfl⟩ | ⟨hop, rfl⟩ | ⟨hop, rfl⟩ |
    ⟨hop, rfl⟩ | ⟨hop, rfl⟩ | ⟨hop, rfl⟩ | ⟨hop, rfl⟩
  all_goals
    simp only [decodeFrame, decodeFrameWith, hop]
    exact takeFixed_eq_wait_iff

/-! ## A frame sent byte by byte -/

/-- Bytes of the host are collected one a step, as long as the frame decoder waits before each of them. -/
theorem runSteps_of_bytes {bs : List Byte} {es : List HostEvent} {s : State} (hreset : s.inReset = false)
    (hhalted : s.halted = false) (hidle : s.sequencer = []) (hin : s.inbox = bs.map .byte ++ es)
    (hwait : ∀ p q, p ++ q = bs → q ≠ [] → decodeFrame (s.rx ++ p) = .wait) :
    runSteps bs.length s = { s with inbox := es, rx := s.rx ++ bs } := by
  induction bs generalizing s with
  | nil =>
    rw [List.append_nil, show es = s.inbox from hin.symm]
    rfl
  | cons b bs ih =>
    have hrun : s.running := ⟨by rw [State.resetPending, hin]; rfl, hreset, hhalted⟩
    have hnow : decodeFrame s.rx = .wait := by simpa using hwait [] (b :: bs) rfl (by simp)
    have hstep := step_of_wait_byte hrun hidle hnow hin
    calc runSteps (b :: bs).length s
        = runSteps bs.length { s with inbox := bs.map .byte ++ es, rx := s.rx ++ [b] } := by
          rw [List.length_cons, runSteps, hstep]; rfl
      _ = { s with inbox := es, rx := s.rx ++ [b] ++ bs } := by
          refine ih hreset hhalted hidle rfl fun p q hpq hq => ?_
          simpa using hwait (b :: p) q (by simp [hpq]) hq
      _ = { s with inbox := es, rx := s.rx ++ (b :: bs) } := by simp

/-- Settles O9: before its last byte the frame is cut short and the block waits; the whole frame decodes
to the command with nothing after it, and the step runs what is decoded. -/
theorem hostBytesRunTheCommand : Obligations.HostBytesRunTheCommand := by
  intro s i op operand es hreset hhalted hidle hrx hwf he hin hes
  have hframe : decodeFrame (op :: operand) = .command i operand [] := by
    simpa using decodeFrame_of_encode hwf he []
  constructor
  · have hcollect := runSteps_of_bytes hreset hhalted hidle hin fun p q hpq hq => by
      rw [hrx]
      exact decodeFrame_wait_of_missing (hpq ▸ hframe) hq
    simpa [hrx] using hcollect
  · have hrun : State.running { s with inbox := es, rx := op :: operand } :=
      ⟨by simpa [State.resetPending] using hes, hreset, hhalted⟩
    exact stepRunsTheDecodedInstruction.1 _ i operand [] hrun hidle hframe

end Sys2Proof.Machine

/-! # 41_binary_permutation.md: the five steps, ROUND, KECCAK_F and PERMUTE_BIN

The steps lane by lane and bit by bit; that each is a bijection; the ROUND and ROUND_RED words against
their permutations. Of the bijections only THETA needs an idea: it acts on the column sums as
`c[x] ↦ c[x] ⊕ c[x−1] ⊕ rotl(c[x+1], 1)`, a map that doubles its two distances when it is applied twice, so
that six doublings turn the rotation by 1 into a rotation by 64, which is none. -/

namespace Sys2Proof.Machine

/-! ## Rotation of a lane -/

/-- Where bit `i` of a rotated lane comes from (00_scope.md R12). -/
theorem getLsbD_rotl (v : Lane) (n : Nat) {i : Nat} (hi : i < 64) :
    (rotl v n).getLsbD i = v.getLsbD ((i + (64 - n % 64)) % 64) := by
  rw [rotl, BitVec.getLsbD_rotateLeft]
  by_cases hwrap : i < n % 64
  · have hfrom : (i + (64 - n % 64)) % 64 = 64 - n % 64 + i := by omega
    simp [hwrap, hfrom]
  · have hfrom : (i + (64 - n % 64)) % 64 = i - n % 64 := by omega
    simp [hwrap, hfrom, hi]

/-- Where bit `i` of a lane goes. -/
theorem getLsbD_rotl_add (v : Lane) (n : Nat) {i : Nat} (hi : i < 64) :
    (rotl v n).getLsbD ((i + n) % 64) = v.getLsbD i := by
  have hback : ((i + n) % 64 + (64 - n % 64)) % 64 = i := by omega
  rw [getLsbD_rotl v n (by omega), hback]

theorem rotl_xor (v w : Lane) (n : Nat) : rotl (v ^^^ w) n = rotl v n ^^^ rotl w n := by
  apply BitVec.eq_of_getLsbD_eq
  intro i hi
  simp only [BitVec.getLsbD_xor, getLsbD_rotl _ n hi]

theorem rotl_rotl (v : Lane) (m n : Nat) : rotl (rotl v m) n = rotl v (m + n) := by
  apply BitVec.eq_of_getLsbD_eq
  intro i hi
  have hfrom : ((i + (64 - n % 64)) % 64 + (64 - m % 64)) % 64 = (i + (64 - (m + n) % 64)) % 64 := by omega
  rw [getLsbD_rotl _ n hi, getLsbD_rotl _ m (by omega), getLsbD_rotl _ _ hi, hfrom]

/-- A rotation by the lane width is none. -/
theorem rotl_laneBits (v : Lane) : rotl v 64 = v := by
  apply BitVec.eq_of_getLsbD_eq
  intro i hi
  rw [getLsbD_rotl _ _ hi, show (i + (64 - 64 % 64)) % 64 = i by omega]

theorem rotl_injective (n : Nat) : Function.Injective fun v => rotl v n := by
  intro v w h
  apply BitVec.eq_of_getLsbD_eq
  intro i hi
  rw [← getLsbD_rotl_add v n hi, ← getLsbD_rotl_add w n hi, show rotl v n = rotl w n from h]

theorem xor_left_comm (u v w : Lane) : u ^^^ (v ^^^ w) = v ^^^ (u ^^^ w) := by
  rw [← BitVec.xor_assoc, BitVec.xor_comm u, BitVec.xor_assoc]

/-- Together with the laws of a commutative sum this cancels what occurs twice. -/
theorem xor_self_xor (v w : Lane) : v ^^^ (v ^^^ w) = w := by
  rw [← BitVec.xor_assoc, BitVec.xor_self, BitVec.zero_xor]

/-! ## The steps lane by lane -/

theorem get_columnParity (a : Grid Lane) (x : Fin 5) : (columnParity a).get x =
    a.get x 0 ^^^ a.get x 1 ^^^ a.get x 2 ^^^ a.get x 3 ^^^ a.get x 4 := Row.get_ofFn _ x

theorem get_theta (a : Grid Lane) (x y : Fin 5) : (theta a).get x y =
    a.get x y ^^^ (columnParity a).get (x - 1) ^^^ rotl ((columnParity a).get (x + 1)) 1 :=
  Grid.get_ofFn _ x y

theorem get_rho (a : Grid Lane) (x y : Fin 5) :
    (rho a).get x y = rotl (a.get x y) (rhoOffsets.get x y) := Grid.get_ofFn _ x y

/-- The scatter form of PI (R142). -/
theorem get_relocate_target {α : Type} (a : Grid α) (x y : Fin 5) :
    (relocate a).get y (2 * x + 3 * y) = a.get x y := by
  have hx : y + 3 * (2 * x + 3 * y) = x := by omega
  rw [get_relocate, hx]

theorem get_chi (a : Grid Lane) (x y : Fin 5) :
    (chi a).get x y = a.get x y ^^^ (~~~ a.get (x + 1) y &&& a.get (x + 2) y) := Grid.get_ofFn _ x y

theorem get_iota (a : Grid Lane) (rnd : Nat) (x y : Fin 5) : (iota a rnd).get x y =
    if x = 0 ∧ y = 0 then a.get 0 0 ^^^ roundConstant rnd else a.get x y := get_setOrigin a _ x y

/-- Every round constant that a legal index selects is one of the ROM (R40). -/
theorem getElem?_RC {r : Nat} (hr : r < 24) : RC[r]? = some (roundConstant r) := by
  have hlen : r < RC.length := hr
  rw [roundConstant, List.getD_eq_getElem?_getD, List.getElem?_eq_getElem hlen, Option.getD_some]

/-- Settles O35: the steps lane by lane; the column sums that THETA keeps are the given ones. -/
theorem thetaMixesColumnsAndChiMixesRows : Obligations.ThetaMixesColumnsAndChiMixesRows := by
  constructor
  · intro s col hcol
    obtain rfl : (columnParity s.work.A).get = col := funext fun x => by rw [get_columnParity, hcol]
    have hrow : Row.ofFn (columnParity s.work.A).get = columnParity s.work.A := Row.ext_get (Row.get_ofFn _)
    exact ⟨{ s with work := s.work.thetaStep }, rfl, by rw [OnlyWork, hrow]; rfl, get_theta s.work.A⟩
  · exact fun s => ⟨{ s with work := s.work.chiStep }, rfl, rfl, get_chi s.work.A⟩

/-- Settles O36: the ROM is the table, and the steps lane by lane. -/
theorem rhoRotatesAndPiRelocates : Obligations.RhoRotatesAndPiRelocates :=
  ⟨rfl, fun s => ⟨⟨{ s with work := s.work.rhoStep }, rfl, rfl, get_rho s.work.A⟩,
    ⟨{ s with work := s.work.piStep }, rfl, rfl, get_relocate_target s.work.A⟩⟩⟩

/-! ## Words that use the round index -/

section RoundWords

variable (s : State) {rnd : BitVec 5}

theorem exec_iota (h : rnd.toNat < 24) :
    exec (.iota rnd) s = .next { s with work := s.work.iotaStep rnd.toNat } :=
  (withRound_eq s rnd _).trans (if_pos h)

theorem exec_iota_reserved (h : 24 ≤ rnd.toNat) :
    exec (.iota rnd) s = .next (s.raise ⟨.internalAssert, 0⟩) :=
  (withRound_eq s rnd _).trans (if_neg h.not_gt)

theorem exec_round (h : rnd.toNat < 24) :
    exec (.round rnd) s = .next { s with work := s.work.roundStep rnd.toNat } :=
  (withRound_eq s rnd _).trans (if_pos h)

theorem exec_round_reserved (h : 24 ≤ rnd.toNat) :
    exec (.round rnd) s = .next (s.raise ⟨.internalAssert, 0⟩) :=
  (withRound_eq s rnd _).trans (if_neg h.not_gt)

theorem exec_roundRed {w : Work} (h : rnd.toNat < 24) (hw : s.work.roundRedStep rnd.toNat = some w) :
    exec (.roundRed rnd) s = .next { s with work := w } := by
  have hpass : decide (rnd.toNat < Config.numRounds) = true := decide_eq_true h
  change execRoundRed rnd s = _
  rw [execRoundRed, require_bind_pass hpass, hw]
  rfl

end RoundWords

/-- Settles O37: the ROM is the table; a legal index selects its constant, any other is fault entry. -/
theorem iotaInjectsTheRoundConstant : Obligations.IotaInjectsTheRoundConstant := by
  refine ⟨rfl, fun s rnd => ⟨fun h => ?_, fun h => ?_⟩⟩
  · exact ⟨_, _, exec_iota s h, rfl, getElem?_RC h, get_iota s.work.A rnd.toNat⟩
  · exact ⟨_, exec_iota_reserved s h, faulted_raise s _⟩

/-! ## Words issued in order -/

/-- A word of a micro-operation that completes is issued, and the rest after it. -/
theorem issueAll_cons {i : Instr} {w : UopWord} {s t : State} (hwf : i.wf = true) (hw : encode i = .uop w)
    (ht : exec i s = .next t) (ws : List UopWord) : issueAll (w :: ws) s = issueAll ws t := by
  rw [issueAll, decodeUop_of_encode hwf hw]
  simp only [ht]

theorem roundIndexOk_of_lt {rnd : BitVec 5} (h : rnd.toNat < 24) : roundIndexOk rnd = true :=
  decide_eq_true h

/-- A round index below 24 fits the `rnd` field of a word (R110). -/
theorem toNat_ofNat_round {r : Nat} (hr : r < 24) : (BitVec.ofNat 5 r).toNat = r := by
  rw [BitVec.toNat_ofNat]; omega

/-- Settles O38: the datapath of ROUND is that of the five words, one after the other. -/
theorem roundIsTheFiveSteps : Obligations.RoundIsTheFiveSteps := by
  refine fun s rnd => ⟨fun h => ?_, fun h => ?_⟩
  · refine ⟨_, exec_round s h, rfl, ?_⟩
    rw [issueAll_cons (w := 0x000) (i := .theta) rfl rfl rfl,
      issueAll_cons (w := 0x001) (i := .rho) rfl rfl rfl,
      issueAll_cons (w := 0x002) (i := .pi) rfl rfl rfl,
      issueAll_cons (w := 0x003) (i := .chi) rfl rfl rfl,
      issueAll_cons (i := .iota rnd) (roundIndexOk_of_lt h) rfl (exec_iota _ h)]
    rfl
  · exact ⟨_, exec_round_reserved s h, faulted_raise s _⟩

/-! ## The steps bit by bit -/

/-- Settles O42: the steps lane by lane, read at bit `i`. -/
theorem stepsActOnBitElements : Obligations.StepsActOnBitElements := by
  refine fun a x y i hi => ⟨?_, ?_, get_relocate_target a x y, ?_, fun rnd => ?_⟩
  · rw [get_theta, BitVec.getLsbD_xor, BitVec.getLsbD_xor, getLsbD_rotl _ 1 hi]
  · rw [get_rho, getLsbD_rotl_add _ _ hi]
  · simp [get_chi, hi]
  · rw [get_iota]
    by_cases horigin : x = 0 ∧ y = 0
    · obtain ⟨rfl, rfl⟩ := horigin
      simp
    · simp [horigin]

/-! ## Each step is a bijection -/

/-- There are finitely many grids: a grid is its 25 lanes. -/
theorem finite_grid : Finite (Grid Lane) :=
  Finite.of_injective Grid.get fun _ _ h => Grid.ext_get fun x y => congrFun (congrFun h x) y

theorem bijective_of_injective {f : Grid Lane → Grid Lane} (h : Function.Injective f) :
    Function.Bijective f :=
  have := finite_grid
  Finite.injective_iff_bijective.mp h

/-- Each column sum with the two at distance `d`, one of them rotated by `n`. THETA does this to the column
sums at `d = 1`, `n = 1`. -/
def mixColumns (d : Fin 5) (n : Nat) (c : Fin 5 → Lane) (x : Fin 5) : Lane :=
  c x ^^^ c (x - d) ^^^ rotl (c (x + d)) n

/-- Twice is once at twice the distances: the products of different terms occur twice and cancel. -/
theorem mixColumns_mixColumns (d : Fin 5) (n : Nat) (c : Fin 5 → Lane) :
    mixColumns d n (mixColumns d n c) = mixColumns (2 * d) (2 * n) c := by
  funext x
  have hdown : x - d - d = x - 2 * d := by omega
  have hup : x + d + d = x + 2 * d := by omega
  simp only [mixColumns, sub_add_cancel, add_sub_cancel_right, hdown, hup, rotl_xor, rotl_rotl, ← two_mul]
  simp only [BitVec.xor_assoc, BitVec.xor_comm, xor_left_comm, xor_self_xor]

/-- At distance 4, which is −1, and without a rotation the map has an inverse, that at distance 3. -/
theorem mixColumns_three_mixColumns_four (c : Fin 5 → Lane) :
    mixColumns 3 64 (mixColumns 4 64 c) = c := by
  funext x
  have hfour (z : Fin 5) : z - 4 = z + 1 := by omega
  have hthree (z : Fin 5) : z - 3 = z + 2 := by omega
  simp only [mixColumns, rotl_laneBits, hfour, hthree, add_assoc, Fin.reduceAdd]
  simp only [BitVec.xor_assoc, BitVec.xor_comm, xor_left_comm, BitVec.xor_self, BitVec.xor_zero,
    xor_self_xor]

theorem mixColumns_injective_of_double {d : Fin 5} {n : Nat}
    (h : Function.Injective (mixColumns (2 * d) (2 * n))) : Function.Injective (mixColumns d n) := by
  intro c e hce
  apply h
  rw [← mixColumns_mixColumns, ← mixColumns_mixColumns, hce]

theorem mixColumns_one_injective : Function.Injective (mixColumns 1 1) := by
  have h64 : Function.Injective (mixColumns 4 64) :=
    Function.LeftInverse.injective mixColumns_three_mixColumns_four
  have h16 : Function.Injective (mixColumns 1 16) :=
    mixColumns_injective_of_double (mixColumns_injective_of_double h64)
  have h4 : Function.Injective (mixColumns 4 4) :=
    mixColumns_injective_of_double (mixColumns_injective_of_double h16)
  exact mixColumns_injective_of_double (mixColumns_injective_of_double h4)

/-- A column has five lanes, an odd number, so what THETA adds to each of them is added to their sum. -/
theorem columnParity_theta (a : Grid Lane) :
    (columnParity (theta a)).get = mixColumns 1 1 (columnParity a).get := by
  funext x
  rw [get_columnParity]
  simp only [get_theta]
  rw [mixColumns, get_columnParity a x]
  simp only [BitVec.xor_assoc, BitVec.xor_comm, xor_left_comm, BitVec.xor_self, xor_self_xor]

theorem theta_injective : Function.Injective theta := by
  intro a b hab
  have hparity : columnParity a = columnParity b := by
    refine Row.ext_get (congrFun (mixColumns_one_injective ?_))
    rw [← columnParity_theta, ← columnParity_theta, hab]
  refine Grid.ext_get fun x y => ?_
  have hlane := congrArg (fun g => g.get x y) hab
  simpa only [get_theta, hparity, BitVec.xor_left_inj] using hlane

theorem rho_injective : Function.Injective rho := by
  refine fun a b hab => Grid.ext_get fun x y => rotl_injective (rhoOffsets.get x y) ?_
  simpa only [get_rho] using congrArg (fun g => g.get x y) hab

theorem relocate_injective {α : Type} : Function.Injective (relocate (α := α)) := by
  refine fun a b hab => Grid.ext_get fun x y => ?_
  rw [← get_relocate_target a, ← get_relocate_target b, hab]

/-- CHI on one bit position of a row, read backwards. -/
theorem chi_bits_inverse : ∀ a b c d e : Bool, a = ((a ^^ (!b && c)) ^^
    (!(b ^^ (!c && d)) && ((c ^^ (!d && e)) ^^ (!(d ^^ (!e && a)) && (e ^^ (!a && b)))))) := by decide

/-- A lane before CHI from the row after it. -/
theorem get_of_chi (a : Grid Lane) (x y : Fin 5) : a.get x y = (chi a).get x y ^^^
    (~~~ (chi a).get (x + 1) y &&& ((chi a).get (x + 2) y ^^^
      (~~~ (chi a).get (x + 3) y &&& (chi a).get (x + 4) y))) := by
  simp only [get_chi, add_assoc, Fin.reduceAdd, add_zero]
  ext i hi
  simp only [BitVec.getElem_xor, BitVec.getElem_and, BitVec.getElem_not]
  exact chi_bits_inverse _ _ _ _ _

theorem chi_injective : Function.Injective chi := by
  refine fun a b hab => Grid.ext_get fun x y => ?_
  rw [get_of_chi a, get_of_chi b, hab]

/-- IOTA undoes itself. -/
theorem iota_iota (rnd : Nat) (a : Grid Lane) : iota (iota a rnd) rnd = a := by
  refine Grid.ext_get fun x y => ?_
  simp only [get_iota]
  split
  next h =>
    obtain ⟨rfl, rfl⟩ := h
    simp
  next => rfl

theorem theta_bijective : Function.Bijective theta := bijective_of_injective theta_injective
theorem rho_bijective : Function.Bijective rho := bijective_of_injective rho_injective
theorem relocate_bijective : Function.Bijective (relocate (α := Lane)) :=
  bijective_of_injective relocate_injective
theorem chi_bijective : Function.Bijective chi := bijective_of_injective chi_injective
theorem iota_bijective (rnd : Nat) : Function.Bijective fun a => iota a rnd :=
  Function.Involutive.bijective (iota_iota rnd)

theorem round_bijective (rnd : Nat) : Function.Bijective fun a => round a rnd :=
  (iota_bijective rnd).comp (chi_bijective.comp (relocate_bijective.comp
    (rho_bijective.comp theta_bijective)))

/-- Rounds one after the other, whatever their indices. -/
theorem foldl_round_bijective (l : List Nat) : Function.Bijective fun a => l.foldl round a := by
  induction l with
  | nil => exact Function.bijective_id
  | cons r l ih => exact ih.comp (round_bijective r)

/-- Settles O41: each step, and the permutation as 24 rounds of them. -/
theorem keccakFIsABijection : Obligations.KeccakFIsABijection :=
  ⟨theta_bijective, rho_bijective, relocate_bijective, chi_bijective, iota_bijective,
    foldl_round_bijective _⟩

/-! ## PERMUTE_BIN -/

/-- What a permutation on the datapath leaves alone (10_state.md R35). -/
theorem Work.keccakFStep_frame (w : Work) : w.keccakFStep =
    { w with A := w.keccakFStep.A, c := w.keccakFStep.c, B := w.keccakFStep.B, rnd := w.keccakFStep.rnd } := by
  rw [Work.mk.injEq]
  simp

theorem onlyResponse_respond {s : State} {v w : Work} (bs : List Byte) (h : v = w) :
    OnlyResponse s (State.respond { s with work := v } bs) bs w := by
  subst h
  exact ⟨delivered_respond _ bs, by rw [respond_eq]⟩

/-- Settles O40: the working grid after the permutation is the response, chunk by chunk. -/
theorem permuteBinRespondsWithKeccakF : Obligations.PermuteBinRespondsWithKeccakF := by
  intro s g
  have hlane (x y : Fin 5) : le64 (field (8 * laneIndex x y) 8 (bytesOfGrid64 (keccakF g))) =
      (keccakF g).get x y := by
    rw [bytesOfGrid64, field_flatMap_chunks 8 leBytes64 length_leBytes64 _ _ _ (Grid.lanes_getElem _ x y),
      le64_leBytes64]
  have hexec : exec (.permuteBin g) s = .next (({ s with work := ({ s.work with A := g }).keccakFStep } :
      State).respond (bytesOfGrid64 (keccakF g))) := by
    rw [← Work.keccakFStep_A { s.work with A := g }]
    rfl
  exact ⟨_, _, hexec, onlyResponse_respond _ (Work.keccakFStep_frame _), length_bytesOfGrid64 _, hlane⟩

/-! ## ROUND_RED of a canonical grid

A canonical lane is a sum of bits times powers of 13, so it is below a twelfth of `13^64`; a lane that
RHO13TO9 makes is below an eighth of `9^64`. THETA13 adds 71 of the former, CHI9 with IOTA9 eight of the
latter, which leaves both conversions within their preconditions. -/

theorem mul_bitSum_lt (b : Nat) {f : Nat → Nat} {n : Nat} (h : ∀ i, i < n → f i ≤ 1) :
    b * sumBelow (fun i => (b + 1) ^ i * f i) n < (b + 1) ^ n := by
  induction n with
  | zero => simp [sumBelow]
  | succ n ih =>
    have hlow := ih fun i hi => h i (by omega)
    have htop : (b + 1) ^ n * f n ≤ (b + 1) ^ n * 1 := Nat.mul_le_mul_left _ (h n (by omega))
    rw [sumBelow, pow_succ]
    nlinarith

/-- A sum over the 64 positions does not see a rotation of them. -/
theorem sumBelow_rotate (f : Nat → Nat) (r : Nat) :
    sumBelow (fun i => f ((i + r) % 64)) 64 = sumBelow f 64 := by
  rw [sumBelow_eq_sum, sumBelow_eq_sum, Finset.sum_range, Finset.sum_range,
    ← Equiv.sum_comp (Equiv.addRight (Fin.ofNat 64 r)) fun i => f i.val]
  refine Finset.sum_congr rfl fun i _ => ?_
  simp [Fin.val_add]

/-- `CONV13TO9_ROT` by the digits of its result: digit `j` is the folded bit that the rotation brings
there (R213). -/
theorem conv13to9Rot_eq (n r : Nat) :
    conv13to9Rot n r = sumBelow (fun j => 9 ^ j * foldedBit n ((j + (64 - r % 64)) % 64)) 64 := by
  rw [← sumBelow_rotate _ r, conv13to9Rot]
  refine sumBelow_congr fun i hi => ?_
  have hback : ((i + r) % 64 + (64 - r % 64)) % 64 = i := by
    have : i < 64 := hi
    omega
  rw [hback]
  rfl

theorem foldedBit_le_one (n i : Nat) : foldedBit n i ≤ 1 := by
  rw [foldedBit]
  split <;> omega

/-- The lanes that PERMUTE_RED admits (R222). -/
def CanonicalGrid (a : Grid RedLane) : Prop := ∀ x y, canonical 13 (a.get x y) = true

theorem CanonicalGrid.lt {a : Grid RedLane} (ha : CanonicalGrid a) (x y : Fin 5) :
    12 * a.get x y < 13 ^ 64 := by
  obtain ⟨hlt, hdigits⟩ := (canonical_iff 13 _).mp (ha x y)
  have hsum := mul_bitSum_lt 12 hdigits
  rwa [digitSum_digit 13 _ 64 hlt] at hsum

theorem get_theta13 (a : Grid RedLane) (x y : Fin 5) : (theta13 a).get x y =
    a.get x y + (columnSum a).get (x - 1) + 13 * (columnSum a).get (x + 1) := Grid.get_ofFn _ x y

theorem get_columnSum (a : Grid RedLane) (x : Fin 5) : (columnSum a).get x =
    a.get x 0 + a.get x 1 + a.get x 2 + a.get x 3 + a.get x 4 := Row.get_ofFn _ x

theorem get_chi9 (a : Grid RedLane) (x y : Fin 5) :
    (chi9 a).get x y = 2 * a.get x y + a.get (x + 1) y + 3 * a.get (x + 2) y := Grid.get_ofFn _ x y

theorem get_iota9 (a : Grid RedLane) (rnd : Nat) (x y : Fin 5) : (iota9 a rnd).get x y =
    if x = 0 ∧ y = 0 then a.get 0 0 + 2 * encLane 9 (roundConstant rnd) else a.get x y :=
  get_setOrigin a _ x y

/-- THETA13 adds 71 canonical lanes, and 71/12 is below 13. -/
theorem foldable_theta13 {a : Grid RedLane} (ha : CanonicalGrid a) : (theta13 a).all foldable = true := by
  refine (Grid.all_iff _ _).mpr fun x y => decide_eq_true ?_
  have hcolumn (z : Fin 5) : 12 * (columnSum a).get z < 5 * 13 ^ 64 := by
    have h0 := ha.lt z 0
    have h1 := ha.lt z 1
    have h2 := ha.lt z 2
    have h3 := ha.lt z 3
    have h4 := ha.lt z 4
    rw [get_columnSum]
    unfold RedLane at *
    omega
  have hself := ha.lt x y
  have hleft := hcolumn (x - 1)
  have hright := hcolumn (x + 1)
  rw [get_theta13]
  unfold RedLane at *
  omega

/-- RHO13TO9 under its precondition. -/
theorem rho13to9_of_foldable {a : Grid RedLane} (ha : a.all foldable = true) :
    ∃ b, rho13to9 a = some b ∧ ∀ x y, b.get x y = conv13to9Rot (a.get x y) (rhoOffsets.get x y) :=
  ⟨_, if_pos ha, Grid.get_ofFn _⟩

/-- CHI9 adds six such lanes and IOTA9 two more, eight in all. -/
theorem convertible_iota9_chi9 {a : Grid RedLane} (ha : ∀ x y, 8 * a.get x y < 9 ^ 64) (rnd : Nat) :
    (iota9 (chi9 a) rnd).all convertible = true := by
  refine (Grid.all_iff _ _).mpr fun x y => decide_eq_true ?_
  have hconstant : 8 * encLane 9 (roundConstant rnd) < 9 ^ 64 :=
    mul_bitSum_lt 8 fun i _ => bitNat_le_one _ i
  have hchi (x y : Fin 5) : 8 * (chi9 a).get x y < 6 * 9 ^ 64 := by
    have h0 := ha x y
    have h1 := ha (x + 1) y
    have h2 := ha (x + 2) y
    rw [get_chi9]
    unfold RedLane at *
    omega
  have hself := hchi x y
  have horigin := hchi 0 0
  rw [get_iota9, Config.laneBits]
  unfold RedLane at *
  split <;> omega

/-- A sum of bits times powers of 13 is canonical. -/
theorem canonical_conv9to13Lane (n : Nat) : canonical 13 (conv9to13Lane n) = true := by
  have hbit (i : Nat) : t9 (digit 9 n i) ≤ 1 := t9_le_one _
  have hbelow (i : Nat) : t9 (digit 9 n i) < 13 := (hbit i).trans_lt (by decide)
  refine (canonical_iff 13 _).mpr ⟨digitSum_lt _ _ fun i _ => hbelow i, fun i hi => ?_⟩
  have hdigit : digit 13 (conv9to13Lane n) i = t9 (digit 9 n i) :=
    (digit_digitSum (by decide) _ _ (fun i _ => hbelow i) i).trans (if_pos hi)
  rw [hdigit]
  exact hbit i

/-- ROUND_RED of a canonical grid completes, and its result is canonical again. -/
theorem roundRed_of_canonicalGrid {a : Grid RedLane} (ha : CanonicalGrid a) (rnd : Nat) :
    ∃ b, roundRed a rnd = some b ∧ CanonicalGrid b := by
  obtain ⟨b, hb, hlane⟩ := rho13to9_of_foldable (foldable_theta13 ha)
  have hsmall (x y : Fin 5) : 8 * (relocate b).get x y < 9 ^ 64 := by
    rw [get_relocate, hlane, conv13to9Rot_eq]
    exact mul_bitSum_lt 8 fun i _ => foldedBit_le_one _ _
  have hconv : conv9to13 (iota9 (chi9 (relocate b)) rnd) =
      some ((iota9 (chi9 (relocate b)) rnd).map conv9to13Lane) :=
    if_pos (convertible_iota9_chi9 hsmall rnd)
  refine ⟨_, by rw [roundRed, hb]; exact hconv, fun x y => ?_⟩
  rw [Grid.get_map]
  exact canonical_conv9to13Lane _

/-! ## The words of a permutation -/

theorem onlyWork_of_eq {s : State} {v w : Work} (h : v = w) : OnlyWork s { s with work := v } w := h ▸ rfl

/-- What ROUND leaves alone, once or any number of times (10_state.md R35). -/
theorem Work.foldl_roundStep_frame (l : List Nat) (w : Work) : l.foldl (fun w r => w.roundStep r) w =
    { w with
      A := (l.foldl (fun w r => w.roundStep r) w).A
      c := (l.foldl (fun w r => w.roundStep r) w).c
      B := (l.foldl (fun w r => w.roundStep r) w).B } := by
  induction l generalizing w with
  | nil => rfl
  | cons r l ih => exact ih (w.roundStep r)

/-- ROUND words in any order are the rounds of those indices on the datapath. -/
theorem issueAll_roundWords (l : List Nat) (hl : ∀ r ∈ l, r < 24) (s : State) :
    issueAll (l.map fun r => uopWord 0x05 (BitVec.ofNat 5 r)) s =
      some { s with work := l.foldl (fun w r => w.roundStep r) s.work } := by
  induction l generalizing s with
  | nil => rfl
  | cons r l ih =>
    obtain ⟨hr, hl⟩ := List.forall_mem_cons.mp hl
    have hfield := toNat_ofNat_round hr
    have hlegal : (BitVec.ofNat 5 r).toNat < 24 := hfield.trans_lt hr
    rw [List.map_cons, issueAll_cons (i := .round _) (roundIndexOk_of_lt hlegal) rfl (exec_round s hlegal),
      ih hl, hfield]
    rfl

/-- ROUND_RED words from a canonical grid are the rounds of those indices on the working grid. -/
theorem issueAll_roundRedWords (l : List Nat) (hl : ∀ r ∈ l, r < 24) (s : State)
    (hs : CanonicalGrid s.work.Q) :
    ∃ t, issueAll (l.map fun r => uopWord 0x0E (BitVec.ofNat 5 r)) s = some t ∧
      OnlyWork s t { s.work with Q := t.work.Q, c := t.work.c, B := t.work.B } ∧
      l.foldlM roundRed s.work.Q = some t.work.Q := by
  induction l generalizing s with
  | nil => exact ⟨s, rfl, rfl, rfl⟩
  | cons r l ih =>
    obtain ⟨hr, hl⟩ := List.forall_mem_cons.mp hl
    have hfield := toNat_ofNat_round hr
    have hlegal : (BitVec.ofNat 5 r).toNat < 24 := hfield.trans_lt hr
    obtain ⟨q, hq, hcanonical⟩ := roundRed_of_canonicalGrid hs r
    rcases Work.roundRedStep_cases s.work r with ⟨hnone, -⟩ | ⟨v, hv, hvQ, hframe⟩
    · cases hq.symm.trans hnone
    · cases hq.symm.trans hvQ
      have hexec := exec_roundRed s hlegal (hfield.symm ▸ hv)
      obtain ⟨t, ht, htframe, htQ⟩ := ih hl { s with work := v } hcanonical
      refine ⟨t, ?_, ?_, ?_⟩
      · rw [List.map_cons, issueAll_cons (i := .roundRed _) (roundIndexOk_of_lt hlegal) rfl hexec, ht]
      · rw [OnlyWork, htframe, hframe]
      · rw [List.foldlM_cons, hvQ]
        exact htQ

/-- Settles O39: the words by induction on their list; of the datapath's registers ROUND writes only the
working grid, `c` and `B`. -/
theorem keccakFIsTwentyFourRoundWords : Obligations.KeccakFIsTwentyFourRoundWords := by
  have hrange : ∀ r ∈ List.range Config.numRounds, r < 24 := fun r => List.mem_range.mp
  constructor
  · intro s
    exact ⟨_, issueAll_roundWords _ hrange s, onlyWork_of_eq (Work.foldl_roundStep_frame _ s.work),
      foldl_steps (fun w r => Work.roundStep r w) Work.A round Work.roundStep_A _ _⟩
  · exact fun s hs => issueAll_roundRedWords _ hrange s hs

end Sys2Proof.Machine

/-! # 42_digit_codec.md: the encoders, the digit and lane decoders, and the laws between them

A response that carries a number is read back by the little-endian laws of its bytes. Everything else is
digits: the digits of `ENC_B(w)` are the bits of `w`, and those of a small multiple of it are the multiples
of the bits, so each law of a lane is a law of one digit. -/

namespace Sys2Proof.Machine

/-! ## One digit -/

theorem digitBit13_le_one (d : Nat) : digitBit13 d ≤ 1 := Nat.le_of_lt_succ (Nat.mod_lt d two_pos)

/-- The byte that DEC13D responds with is bit 0 of its operand (R185). -/
theorem ofNat_digitBit13 (d : Byte) : BitVec.ofNat 8 (digitBit13 d.toNat) = d &&& 1 := by
  apply BitVec.eq_of_toNat_eq
  have hfits : d.toNat % 2 < 2 ^ 8 := (Nat.mod_lt _ two_pos).trans (by decide)
  rw [BitVec.toNat_ofNat, digitBit13, Nat.mod_eq_of_lt hfits, BitVec.toNat_and]
  exact (Nat.and_one_is_mod _).symm

/-- Every base-9 digit selects an entry of the ROM (R43). -/
theorem getElem?_T9 {d : Nat} (hd : d ≤ 8) : T9[d]? = some (t9 d) := by
  have hlen : d < T9.length := Nat.lt_succ_of_le hd
  rw [t9, List.getD_eq_getElem?_getD, List.getElem?_eq_getElem hlen, Option.getD_some]

/-- The base-9 digits that carry a 1 (R43). -/
theorem t9_eq_one_iff : ∀ d < 9, t9 d = 1 ↔ d ∈ [2, 3, 6, 7] := by decide

/-- Exclusive or is the parity of the sum, whatever bit it starts from. -/
theorem toNat_foldl_xor (bits : List Bool) (b : Bool) :
    (bits.foldl xor b).toNat = (b.toNat + (bits.map Bool.toNat).sum) % 2 := by
  induction bits generalizing b with
  | nil => cases b <;> rfl
  | cons x bits ih =>
    have hxor : (b ^^ x).toNat % 2 = (b.toNat + x.toNat) % 2 := by cases b <;> cases x <;> rfl
    rw [List.foldl_cons, ih, List.map_cons, List.sum_cons, ← Nat.add_assoc, Nat.add_mod, hxor,
      ← Nat.add_mod]

/-- Settles O47: the parity law by induction on the bits, the laws of `T9` by its nine entries. -/
theorem digitLaws : Obligations.DigitLaws := by
  refine ⟨fun bits _ => ?_, by decide, by decide⟩
  rw [toNat_foldl_xor, Bool.toNat_false, Nat.zero_add, digitBit13]

/-! ## The digits of a lane -/

/-- Digit `i` of a small multiple of `ENC_B(w)` is that multiple of bit `i`: nothing carries. -/
theorem digit_mul_encLane {B k : Nat} (hB : 1 < B) (hk : k < B) (w : Lane) {i : Nat} (hi : i < 64) :
    digit B (k * encLane B w) i = k * bitNat w i := by
  have hsum : k * encLane B w = sumBelow (fun i => B ^ i * (k * bitNat w i)) 64 := by
    rw [encLane, ← sumBelow_mul]
    exact sumBelow_congr fun i _ => Nat.mul_left_comm k _ _
  have hdigit : ∀ i, i < 64 → k * bitNat w i < B := fun i _ =>
    (mul_le_of_le_one_right (Nat.zero_le k) (bitNat_le_one w i)).trans_lt hk
  rw [hsum, digit_digitSum hB _ 64 hdigit, if_pos hi]

theorem decLane13_encLane (w : Lane) : decLane13 (encLane 13 w) = w := by
  refine eq_wordOfBits fun i hi => ?_
  rw [digit_encLane (by decide) w i, if_pos hi, digitBit13]
  exact Nat.mod_eq_of_lt (Nat.lt_succ_of_le (bitNat_le_one w i))

/-- `DEC_9` of a small multiple of `ENC_9(w)`, bit by bit. -/
theorem decLane9_mul_encLane {k : Nat} (hk : k < 9) {w v : Lane}
    (h : ∀ i, t9 (k * bitNat w i) = bitNat v i) : decLane9 (k * encLane 9 w) = v :=
  eq_wordOfBits fun i hi => by rw [digit_mul_encLane (by decide) hk w hi, h i]

/-- Settles O46: base 13 by parity of a bit; base 9 by what `T9` has at 1, 2 and 3 times a bit. -/
theorem codecRoundTrips : Obligations.CodecRoundTrips := by
  have hone : ∀ b : Bool, t9 (1 * b.toNat) = 0 := by decide
  have htwo : ∀ b : Bool, t9 (2 * b.toNat) = b.toNat := by decide
  have hthree : ∀ b : Bool, t9 (3 * b.toNat) = b.toNat := by decide
  have hzero (i : Nat) : bitNat 0 i = 0 := by simp [bitNat]
  refine fun w => ⟨decLane13_encLane w, ?_, decLane9_mul_encLane (by decide) fun i => htwo _,
    decLane9_mul_encLane (by decide) fun i => hthree _⟩
  rw [← Nat.one_mul (encLane 9 w)]
  exact decLane9_mul_encLane (by decide) fun i => (hone _).trans (hzero i).symm

/-! ## Canonical lanes -/

theorem encLane_injective {B : Nat} (hB : 1 < B) : Function.Injective (encLane B) := by
  intro w v h
  have hbits : ∀ i, i < 64 → bitNat w i = bitNat v i := fun i hi => by
    have hdigit := congrArg (digit B · i) h
    simpa only [digit_encLane hB, if_pos hi] using hdigit
  exact (eq_wordOfBits fun _ _ => rfl).symm.trans (eq_wordOfBits hbits)

theorem canonical_encLane {B : Nat} (hB : 1 < B) (w : Lane) : canonical B (encLane B w) = true := by
  refine (canonical_iff B _).mpr ⟨encLane_lt hB w, fun i hi => ?_⟩
  rw [digit_encLane hB, if_pos hi]
  exact bitNat_le_one w i

/-- The digits of a canonical lane are the bits of a word, and the lane is their sum. -/
theorem exists_encLane_of_canonical {B n : Nat} (h : canonical B n = true) : ∃ w, n = encLane B w := by
  obtain ⟨hlt, hdigits⟩ := (canonical_iff B n).mp h
  have hbits := fun i hi => (bitNat_wordOfBits (digit B n) hdigits (i := i) hi).symm
  exact ⟨_, (digitSum_digit B n 64 hlt).symm.trans (encLane_eq hbits)⟩

theorem canonical_iff_existsUnique {B : Nat} (hB : 1 < B) (n : Nat) :
    canonical B n = true ↔ ∃! w, n = encLane B w := by
  constructor
  · intro h
    obtain ⟨w, rfl⟩ := exists_encLane_of_canonical h
    exact ⟨w, rfl, fun v hv => encLane_injective hB hv.symm⟩
  · rintro ⟨w, rfl, -⟩
    exact canonical_encLane hB w

/-- Settles O48: the encoder is injective, and its range is the canonical lanes. -/
theorem canonicalLanesAreEncodings : Obligations.CanonicalLanesAreEncodings := by
  refine ⟨canonical_iff_existsUnique (by decide), canonical_iff_existsUnique (by decide), ?_⟩
  rintro _ w - rfl
  exact decLane13_encLane w

/-! ## The encoding commands -/

/-- The 32 response bytes of an encoder hold the whole sum, if the base is small enough for them. -/
theorem leNat_leBytes256_encLane {B : Nat} (hB : 1 < B) (hfit : B ^ 64 ≤ 2 ^ 256) (w : Lane) :
    leNat (leBytes256 (encLane B w)) = ∑ i ∈ Finset.range 64, (w.getLsbD i).toNat * B ^ i := by
  rw [leNat_leBytes256 ((encLane_lt hB w).trans_le hfit), encLane, sumBelow_eq_sum]
  exact Finset.sum_congr rfl fun i _ => Nat.mul_comm _ _

/-- Settles O43: the response of each encoder is the sum, which fits 32 bytes in either base. -/
theorem encodersRespondWithDigitSums : Obligations.EncodersRespondWithDigitSums := fun s w =>
  ⟨⟨_, _, rfl, onlyResponse_respond (s := s) _ rfl, length_leBytes256 _,
      leNat_leBytes256_encLane (by decide) (by norm_num) w⟩,
    ⟨_, _, rfl, onlyResponse_respond (s := s) _ rfl, length_leBytes256 _,
      leNat_leBytes256_encLane (by decide) (by norm_num) w⟩⟩

/-! ## The decoding commands

Each is one check of its operand, then a response. -/

section Checked

variable {i : Instr} {s : State} {p : Bool} {c : Cause} {info : Byte} {bs : List Byte}
  (hexec : exec i s = s.conclude (require p c info >>= fun _ => .ok (s.respond bs)))

include hexec

theorem onlyResponse_of_check (hp : p = true) : ∃ t, exec i s = .next t ∧ OnlyResponse s t bs s.work :=
  ⟨s.respond bs, by rw [hexec, require_bind_pass hp, conclude_ok], onlyResponse_respond bs rfl⟩

theorem faulted_of_check (hp : p = false) : ∃ t, exec i s = .next t ∧ Faulted s t c info :=
  ⟨s.raise ⟨c, info⟩, by rw [hexec, require_bind_fail hp, conclude_error], faulted_raise s _⟩

/-- A decoder whose response is a word: the word is read back from its 8 bytes. -/
theorem decodedWord_of_check {bit : Nat → Nat} (hbs : bs = leBytes64 (wordOfBits bit))
    (hbit : ∀ j, bit j ≤ 1) (hp : p = true) :
    ∃ t bytes, exec i s = .next t ∧ OnlyResponse s t bytes s.work ∧ bytes.length = 8 ∧
      ∀ j, j < 64 → (le64 bytes).getLsbD j = decide (bit j = 1) := by
  subst hbs
  obtain ⟨t, ht, hresponse⟩ := onlyResponse_of_check hexec hp
  refine ⟨t, _, ht, hresponse, length_leBytes64 _, fun j hj => ?_⟩
  rw [le64_leBytes64, getLsbD_wordOfBits bit (fun j _ => hbit j) hj]

end Checked

/-- Settles O44: the two sides of each check; the response is bit 0 of the digit, or its entry of `T9`. -/
theorem digitDecodersRespondOrRaise : Obligations.DigitDecodersRespondOrRaise := by
  refine fun s d => ⟨fun h => ?_, fun h => ?_, fun h => ?_, fun h => ?_⟩
  · rw [← ofNat_digitBit13]
    exact onlyResponse_of_check rfl (decide_eq_true h)
  · exact faulted_of_check rfl (decide_eq_false h.not_ge)
  · obtain ⟨t, ht, hresponse⟩ := onlyResponse_of_check (i := .dec9d d) (s := s) rfl (decide_eq_true h)
    have hentry : (T9.map (BitVec.ofNat 8))[d.toNat]? = some (BitVec.ofNat 8 (t9 d.toNat)) := by
      rw [List.getElem?_map, getElem?_T9 h, Option.map_some]
    exact ⟨t, _, ht, hresponse, hentry⟩
  · exact faulted_of_check rfl (decide_eq_false h.not_ge)

/-- Settles O45: the two sides of each check; the response is read back bit by bit. -/
theorem laneDecodersRespondOrRaise : Obligations.LaneDecodersRespondOrRaise := by
  refine fun s n => ⟨fun h => ?_, fun h => ?_, fun h => ?_, fun h => ?_⟩
  · exact decodedWord_of_check rfl rfl (fun _ => digitBit13_le_one _) (decide_eq_true h)
  · exact faulted_of_check rfl (decide_eq_false h.not_gt)
  · obtain ⟨t, bytes, ht, hresponse, hlength, hword⟩ := decodedWord_of_check (i := .dec9l n) (s := s)
      rfl rfl (fun _ => t9_le_one _) (decide_eq_true h)
    refine ⟨t, bytes, ht, hresponse, hlength, fun j hj => ?_⟩
    rw [hword j hj]
    exact decide_eq_decide.mpr (t9_eq_one_iff _ (digit_lt (by decide) _ _))
  · exact faulted_of_check rfl (decide_eq_false h.not_gt)

end Sys2Proof.Machine

/-! # 43_redundant_permutation.md: the redundant steps, their digits, and the two engines

A redundant lane is a list of digits, and where the digits of two lanes add up to less than the base at every
position, the digits of the sum are the sums of the digits. So every step of the engine is a law of one digit,
and against the binary engine it is a law of one bit: THETA13 by parity, CHI9 and IOTA9 by the table `T9`. -/

namespace Sys2Proof.Machine

/-! ## Sums of lanes digit by digit -/

section Digits

variable {B m n p q : Nat} {f g : Nat → Nat}

/-- The digits of the lane `n` are `f`, and none is above `p`. -/
structure HasDigits (B n p : Nat) (f : Nat → Nat) : Prop where
  digit_eq : ∀ i, digit B n i = f i
  le : ∀ i, f i ≤ p

theorem HasDigits.digit_le (hn : HasDigits B n p f) (i : Nat) : digit B n i ≤ p :=
  (hn.digit_eq i).trans_le (hn.le i)

theorem HasDigits.self (hn : HasDigits B n p f) : HasDigits B n p (digit B n) := ⟨fun _ => rfl, hn.digit_le⟩

/-- Nothing carries into position `i`. -/
theorem HasDigits.mod_pow_add_lt (hm : HasDigits B m p f) (hn : HasDigits B n q g) (h : p + q < B) (i : Nat) :
    m % B ^ i + n % B ^ i < B ^ i := by
  induction i with
  | zero => simp [Nat.mod_one]
  | succ i ih =>
    have hdigit : m / B ^ i % B + n / B ^ i % B < B :=
      (Nat.add_le_add (hm.digit_le i) (hn.digit_le i)).trans_lt h
    have htop := Nat.mul_le_mul_left (B ^ i) (Nat.succ_le_of_lt hdigit)
    rw [pow_succ, Nat.mod_mul, Nat.mod_mul]
    linarith

/-- The digits of a sum without carries. The bound is a fact about numerals at every use. -/
theorem HasDigits.add (hm : HasDigits B m p f) (hn : HasDigits B n q g) (h : p + q < B := by decide) :
    HasDigits B (m + n) (p + q) fun i => f i + g i where
  digit_eq i := by
    have hcarry := hm.mod_pow_add_lt hn h i
    have hdigit : digit B m i + digit B n i < B :=
      (Nat.add_le_add (hm.digit_le i) (hn.digit_le i)).trans_lt h
    rw [← hm.digit_eq, ← hn.digit_eq, digit, Nat.add_div (Nat.zero_lt_of_lt hcarry), if_neg hcarry.not_ge,
      Nat.add_zero, Nat.add_mod]
    exact Nat.mod_eq_of_lt hdigit
  le i := Nat.add_le_add (hm.le i) (hn.le i)

/-- A small multiple is a sum of equal lanes. -/
theorem HasDigits.mul (k : Nat) (hn : HasDigits B n p f) (h : k * p < B := by decide) :
    HasDigits B (k * n) (k * p) fun i => k * f i := by
  induction k with
  | zero => exact ⟨fun i => by simp [digit], fun i => by simp⟩
  | succ k ih =>
    rw [Nat.succ_mul] at h
    simp only [Nat.succ_mul]
    exact (ih (by omega)).add hn h

/-- Multiplication by the base moves every digit up one position (R211). -/
theorem HasDigits.base_mul (hn : HasDigits B n p f) (hB : 0 < B := by decide) :
    HasDigits B (B * n) p fun i => if i = 0 then 0 else f (i - 1) where
  digit_eq i := by
    cases i with
    | zero => simp [digit]
    | succ i =>
      rw [digit, pow_succ', Nat.mul_div_mul_left _ _ hB]
      exact hn.digit_eq i
  le i := by
    split
    · exact Nat.zero_le p
    · exact hn.le _

theorem hasDigits_encLane (hB : 1 < B) (w : Lane) :
    HasDigits B (encLane B w) 1 fun i => if i < 64 then bitNat w i else 0 where
  digit_eq := digit_encLane hB w
  le i := by
    split
    · exact bitNat_le_one w i
    · exact Nat.zero_le 1

theorem hasDigits_of_canonical (hB : 1 < B) (h : canonical B n = true) : HasDigits B n 1 (digit B n) := by
  obtain ⟨w, rfl⟩ := exists_encLane_of_canonical h
  exact (hasDigits_encLane hB w).self

/-- A lane of `k` digits has none from position `k` on. -/
theorem digit_eq_zero_of_lt {k i : Nat} (hn : n < B ^ k) (hB : 0 < B) (hi : k ≤ i) : digit B n i = 0 := by
  rw [digit, Nat.div_eq_of_lt (hn.trans_le (Nat.pow_le_pow_right hB hi)), Nat.zero_mod]

end Digits

theorem get_map_encLane (B : Nat) (w : Grid Lane) (x y : Fin 5) :
    (w.map (encLane B)).get x y = encLane B (w.get x y) := Grid.get_map _ w x y

theorem canonical_map_encLane {B : Nat} (hB : 1 < B) (w : Grid Lane) (x y : Fin 5) :
    canonical B ((w.map (encLane B)).get x y) = true := by
  rw [get_map_encLane]
  exact canonical_encLane hB _

/-! ## The digits of THETA13 (R212) -/

section Theta13

variable {a : Grid RedLane} (ha : CanonicalGrid a)

include ha

theorem hasDigits_columnSum (x : Fin 5) : HasDigits 13 ((columnSum a).get x) 5 fun i =>
    digit 13 (a.get x 0) i + digit 13 (a.get x 1) i + digit 13 (a.get x 2) i + digit 13 (a.get x 3) i +
      digit 13 (a.get x 4) i := by
  have hlane (y : Fin 5) := hasDigits_of_canonical (by decide) (ha x y)
  rw [get_columnSum]
  exact ((((hlane 0).add (hlane 1)).add (hlane 2)).add (hlane 3)).add (hlane 4)

/-- A column sum is five canonical lanes, each below a twelfth of `13^64`. -/
theorem columnSum_lt (x : Fin 5) : 12 * (columnSum a).get x < 5 * 13 ^ 64 := by
  have h0 := ha.lt x 0
  have h1 := ha.lt x 1
  have h2 := ha.lt x 2
  have h3 := ha.lt x 3
  have h4 := ha.lt x 4
  rw [get_columnSum]
  unfold RedLane at *
  omega

theorem columnSum_lt_pow (x : Fin 5) : (columnSum a).get x < 13 ^ 64 := by
  have := columnSum_lt ha x
  unfold RedLane at *
  omega

theorem hasDigits_theta13 (x y : Fin 5) : HasDigits 13 ((theta13 a).get x y) 11 fun i =>
    digit 13 (a.get x y) i + digit 13 ((columnSum a).get (x - 1)) i +
      if i = 0 then 0 else digit 13 ((columnSum a).get (x + 1)) (i - 1) := by
  have hself := hasDigits_of_canonical (by decide) (ha x y)
  have hcolumn (z : Fin 5) := (hasDigits_columnSum ha z).self
  rw [get_theta13]
  exact (hself.add (hcolumn (x - 1))).add (hcolumn (x + 1)).base_mul

theorem digit_theta13_zero (x y : Fin 5) : digit 13 ((theta13 a).get x y) 0 =
    digit 13 (a.get x y) 0 + digit 13 ((columnSum a).get (x - 1)) 0 := by
  rw [(hasDigits_theta13 ha x y).digit_eq, if_pos rfl, Nat.add_zero]

theorem digit_theta13_inner (x y : Fin 5) {i : Nat} (hi : 1 ≤ i) : digit 13 ((theta13 a).get x y) i =
    digit 13 (a.get x y) i + digit 13 ((columnSum a).get (x - 1)) i +
      digit 13 ((columnSum a).get (x + 1)) (i - 1) := by
  rw [(hasDigits_theta13 ha x y).digit_eq, if_neg (Nat.ne_of_gt hi)]

/-- Digit 64 is what the factor 13 moves out of the lane (R211). -/
theorem digit_theta13_top (x y : Fin 5) :
    digit 13 ((theta13 a).get x y) 64 = digit 13 ((columnSum a).get (x + 1)) 63 := by
  have hself : digit 13 (a.get x y) 64 = 0 :=
    digit_eq_zero_of_lt ((canonical_iff 13 _).mp (ha x y)).1 (by decide) le_rfl
  have hleft : digit 13 ((columnSum a).get (x - 1)) 64 = 0 :=
    digit_eq_zero_of_lt (columnSum_lt_pow ha _) (by decide) le_rfl
  rw [digit_theta13_inner ha x y (by decide), hself, hleft, Nat.zero_add]

end Theta13

/-! ## THETA13 and RHO13TO9 against THETA and RHO -/

theorem bitNat_xor (v w : Lane) (i : Nat) : bitNat (v ^^^ w) i = (bitNat v i + bitNat w i) % 2 := by
  rw [bitNat, BitVec.getLsbD_xor, bitNat, bitNat]
  cases v.getLsbD i <;> cases w.getLsbD i <;> rfl

theorem bitNat_rotl (v : Lane) (n : Nat) {i : Nat} (hi : i < 64) :
    bitNat (rotl v n) i = bitNat v ((i + (64 - n % 64)) % 64) := congrArg Bool.toNat (getLsbD_rotl v n hi)

theorem canonicalGrid_map_encLane (w : Grid Lane) : CanonicalGrid (w.map (encLane 13)) :=
  canonical_map_encLane (by decide) w

theorem digit_map_encLane {B : Nat} (hB : 1 < B) (w : Grid Lane) (x y : Fin 5) {i : Nat} (hi : i < 64) :
    digit B ((w.map (encLane B)).get x y) i = bitNat (w.get x y) i := by
  rw [get_map_encLane, digit_encLane hB, if_pos hi]

/-- The parity of a column sum's digit is the bit of the column parity (R190). -/
theorem digit_columnSum_mod_two (w : Grid Lane) (x : Fin 5) {i : Nat} (hi : i < 64) :
    digit 13 ((columnSum (w.map (encLane 13))).get x) i % 2 = bitNat ((columnParity w).get x) i := by
  rw [(hasDigits_columnSum (canonicalGrid_map_encLane w) x).digit_eq, get_columnParity]
  simp only [digit_map_encLane (B := 13) (by decide) w _ _ hi, bitNat_xor]
  omega

/-- The folded bits of THETA13 are the bits of THETA: the digit that the factor 13 moves out of the lane
comes back as bit 63 does by the rotation (R213). -/
theorem foldedBit_theta13 (w : Grid Lane) (x y : Fin 5) {i : Nat} (hi : i < 64) :
    foldedBit ((theta13 (w.map (encLane 13))).get x y) i = bitNat ((theta w).get x y) i := by
  have ha := canonicalGrid_map_encLane w
  have hself := digit_map_encLane (B := 13) (by decide) w x y hi
  have hleft := digit_columnSum_mod_two w (x - 1) hi
  have hright := digit_columnSum_mod_two w (x + 1) (i := (i + 63) % 64) (by omega)
  rw [get_theta, bitNat_xor, bitNat_xor, bitNat_rotl _ 1 hi, ← hself, ← hleft]
  change _ = (_ + bitNat _ ((i + 63) % 64)) % 2
  rw [← hright, foldedBit]
  by_cases hzero : i = 0
  · subst hzero
    have hfrom : (0 + 63) % 64 = 63 := rfl
    rw [if_pos rfl, digit_theta13_zero ha, digit_theta13_top ha, hfrom]
    omega
  · have hfrom : (i + 63) % 64 = i - 1 := by omega
    rw [if_neg hzero, digit_theta13_inner ha x y (by omega), hfrom]
    omega

theorem map_fold13_theta13 (w : Grid Lane) : (theta13 (w.map (encLane 13))).map fold13 = theta w :=
  Grid.ext_get fun x y => by
    rw [Grid.get_map]
    exact eq_wordOfBits fun _ hi => foldedBit_theta13 w x y hi

/-- `CONV13TO9_ROT` is the base-9 encoding of the rotated word of the folded bits (R213). -/
theorem conv13to9Rot_eq_encLane (n r : Nat) : conv13to9Rot n r = encLane 9 (rotl (fold13 n) r) := by
  rw [conv13to9Rot_eq]
  refine encLane_eq fun i hi => ?_
  rw [bitNat_rotl _ _ hi, fold13, bitNat_wordOfBits _ (fun i _ => foldedBit_le_one n i) (by omega)]

/-- RHO13TO9 under its precondition is RHO of the folded words, encoded in base 9. -/
theorem rho13to9_eq {a : Grid RedLane} (ha : a.all foldable = true) :
    rho13to9 a = some ((rho (a.map fold13)).map (encLane 9)) := by
  obtain ⟨b, hb, hlane⟩ := rho13to9_of_foldable ha
  rw [hb]
  refine congrArg some (Grid.ext_get fun x y => ?_)
  rw [hlane, conv13to9Rot_eq_encLane, get_map_encLane, get_rho, Grid.get_map]

theorem relocate_map {α β : Type} (f : α → β) (a : Grid α) : relocate (a.map f) = (relocate a).map f :=
  Grid.ext_get fun x y => by simp only [get_relocate, Grid.get_map]

/-! ## The digits of CHI9 and IOTA9 (R218) -/

section Chi9

variable {a : Grid RedLane} (ha : ∀ x y, canonical 9 (a.get x y) = true)

include ha

theorem hasDigits_chi9 (x y : Fin 5) : HasDigits 9 ((chi9 a).get x y) 6 fun i =>
    2 * digit 9 (a.get x y) i + digit 9 (a.get (x + 1) y) i + 3 * digit 9 (a.get (x + 2) y) i := by
  have hlane (x : Fin 5) := hasDigits_of_canonical (by decide) (ha x y)
  rw [get_chi9]
  exact (((hlane x).mul 2).add (hlane (x + 1))).add ((hlane (x + 2)).mul 3)

theorem hasDigits_iota9_origin (rnd : Nat) : HasDigits 9 ((iota9 (chi9 a) rnd).get 0 0) 8 fun i =>
    digit 9 ((chi9 a).get 0 0) i + 2 * if i < 64 then bitNat (roundConstant rnd) i else 0 := by
  have hchi := (hasDigits_chi9 ha 0 0).self
  rw [get_iota9, if_pos ⟨rfl, rfl⟩]
  exact hchi.add ((hasDigits_encLane (by decide) _).mul 2)

/-- A canonical lane is below an eighth of `9^64`. -/
theorem eight_mul_lt (x y : Fin 5) : 8 * a.get x y < 9 ^ 64 := by
  obtain ⟨hlt, hdigits⟩ := (canonical_iff 9 _).mp (ha x y)
  have hsum := mul_bitSum_lt 8 hdigits
  rwa [digitSum_digit 9 _ 64 hlt] at hsum

theorem iota9_chi9_lt (rnd : Nat) (x y : Fin 5) : (iota9 (chi9 a) rnd).get x y < 9 ^ 64 :=
  of_decide_eq_true ((Grid.all_iff _ _).mp (convertible_iota9_chi9 (eight_mul_lt ha) rnd) x y)

end Chi9

/-! ## CHI9, IOTA9 and CONV9TO13 against CHI and IOTA -/

/-- The chi law on the digits of three encoded lanes (R191). -/
theorem t9_digit_chi9 (v : Grid Lane) (x y : Fin 5) {i : Nat} (hi : i < 64) :
    t9 (digit 9 ((chi9 (v.map (encLane 9))).get x y) i) = bitNat ((chi v).get x y) i := by
  have hlaw := digitLaws.2.1 ((v.get x y).getLsbD i) ((v.get (x + 1) y).getLsbD i) ((v.get (x + 2) y).getLsbD i)
  have hbit : bitNat ((chi v).get x y) i =
      ((v.get x y).getLsbD i ^^ (!(v.get (x + 1) y).getLsbD i && (v.get (x + 2) y).getLsbD i)).toNat := by
    rw [bitNat, get_chi]
    simp [hi]
  rw [hbit, (hasDigits_chi9 (canonical_map_encLane (by decide) v) x y).digit_eq]
  simp only [digit_map_encLane (B := 9) (by decide) v _ _ hi]
  exact hlaw

/-- The iota flip law (R192): adding twice a bit to a chi digit is exclusive or with the bit. -/
theorem t9_add_two_mul {d b : Nat} (hd : d ≤ 6) (hb : b ≤ 1) : t9 (d + 2 * b) = (t9 d + b) % 2 := by
  have hbit := t9_le_one d
  obtain rfl | rfl : b = 0 ∨ b = 1 := by omega
  · rw [Nat.mul_zero, Nat.add_zero, Nat.add_zero, Nat.mod_eq_of_lt (by omega)]
  · rw [Nat.mul_one, digitLaws.2.2 d hd]
    omega

theorem t9_digit_iota9 (v : Grid Lane) (rnd : Nat) (x y : Fin 5) {i : Nat} (hi : i < 64) :
    t9 (digit 9 ((iota9 (chi9 (v.map (encLane 9))) rnd).get x y) i) = bitNat ((iota (chi v) rnd).get x y) i := by
  have hv := canonical_map_encLane (B := 9) (by decide) v
  by_cases horigin : x = 0 ∧ y = 0
  · obtain ⟨rfl, rfl⟩ := horigin
    rw [(hasDigits_iota9_origin hv rnd).digit_eq, if_pos hi,
      t9_add_two_mul ((hasDigits_chi9 hv 0 0).digit_le i) (bitNat_le_one _ i), t9_digit_chi9 v 0 0 hi, get_iota,
      if_pos ⟨rfl, rfl⟩, bitNat_xor]
  · rw [get_iota9, if_neg horigin, get_iota, if_neg horigin, t9_digit_chi9 v x y hi]

theorem decLane9_chi9 (v : Grid Lane) : (chi9 (v.map (encLane 9))).map decLane9 = chi v :=
  Grid.ext_get fun x y => by
    rw [Grid.get_map]
    exact eq_wordOfBits fun _ hi => t9_digit_chi9 v x y hi

theorem decLane9_iota9 (v : Grid Lane) (rnd : Nat) :
    (iota9 (chi9 (v.map (encLane 9))) rnd).map decLane9 = iota (chi v) rnd :=
  Grid.ext_get fun x y => by
    rw [Grid.get_map]
    exact eq_wordOfBits fun _ hi => t9_digit_iota9 v rnd x y hi

/-- CONV9TO13 of a lane is `ENC_13` of its `DEC_9` (R219). -/
theorem conv9to13Lane_eq_encLane (n : Nat) : conv9to13Lane n = encLane 13 (decLane9 n) :=
  encLane_eq fun _ hi => (bitNat_wordOfBits _ (fun _ _ => t9_le_one _) hi).symm

theorem grid_map_map {α β γ : Type} (f : α → β) (g : β → γ) (a : Grid α) :
    (a.map f).map g = a.map fun v => g (f v) := Grid.ext_get fun x y => by simp only [Grid.get_map]

/-- CONV9TO13 under its precondition. -/
theorem conv9to13_of_convertible {a : Grid RedLane} (ha : a.all convertible = true) :
    conv9to13 a = some ((a.map decLane9).map (encLane 13)) := by
  rw [grid_map_map, ← funext conv9to13Lane_eq_encLane]
  exact if_pos ha

theorem conv9to13_iota9 (v : Grid Lane) (rnd : Nat) :
    conv9to13 (iota9 (chi9 (v.map (encLane 9))) rnd) = some ((iota (chi v) rnd).map (encLane 13)) := by
  have hsmall := eight_mul_lt (canonical_map_encLane (B := 9) (by decide) v)
  rw [conv9to13_of_convertible (convertible_iota9_chi9 hsmall rnd), decLane9_iota9]

/-! ## The rounds and the permutation -/

theorem rho13to9_theta13 (w : Grid Lane) :
    rho13to9 (theta13 (w.map (encLane 13))) = some ((rho (theta w)).map (encLane 9)) := by
  rw [rho13to9_eq (foldable_theta13 (canonicalGrid_map_encLane w)), map_fold13_theta13]

theorem roundRed_map_encLane (w : Grid Lane) (rnd : Nat) :
    roundRed (w.map (encLane 13)) rnd = some ((round w rnd).map (encLane 13)) := by
  rw [roundRed, rho13to9_theta13, Option.bind_some, relocate_map, conv9to13_iota9, round]

/-- Rounds one after the other, whatever their indices: the encoding is kept. -/
theorem foldlM_roundRed_map_encLane (l : List Nat) (w : Grid Lane) :
    l.foldlM roundRed (w.map (encLane 13)) = some ((l.foldl round w).map (encLane 13)) := by
  induction l generalizing w with
  | nil => rfl
  | cons r l ih => rw [List.foldlM_cons, roundRed_map_encLane]; exact ih _

theorem keccakFRed_map_encLane (w : Grid Lane) :
    keccakFRed (w.map (encLane 13)) = some ((keccakF w).map (encLane 13)) :=
  foldlM_roundRed_map_encLane _ w

/-- Settles O58: each stage by the law of its digits, the permutation by induction on the rounds. -/
theorem enginesAreEquivalent : Obligations.EnginesAreEquivalent :=
  ⟨fun w v rnd _ => ⟨map_fold13_theta13 w, rho13to9_theta13 w, relocate_map _ v, decLane9_chi9 v,
    decLane9_iota9 v rnd, conv9to13_iota9 v rnd, roundRed_map_encLane w rnd⟩, keccakFRed_map_encLane⟩

/-! ## The bounds of R212, R218 and R224 -/

theorem bitNat_allOnes {i : Nat} (hi : i < 64) : bitNat (BitVec.allOnes 64) i = 1 := by
  rw [bitNat, BitVec.getLsbD_allOnes, decide_eq_true hi]
  rfl

/-- Every digit of the all-ones grid is 1. -/
theorem digit_fill_allOnes {B : Nat} (hB : 1 < B) (x y : Fin 5) {i : Nat} (hi : i < 64) :
    digit B ((Grid.fill (encLane B (BitVec.allOnes 64))).get x y) i = 1 := by
  rw [Grid.get_fill, digit_encLane hB, if_pos hi, bitNat_allOnes hi]

theorem canonical_fill_allOnes {B : Nat} (hB : 1 < B) (x y : Fin 5) :
    canonical B ((Grid.fill (encLane B (BitVec.allOnes 64))).get x y) = true := by
  rw [Grid.get_fill]
  exact canonical_encLane hB _

theorem digit_columnSum_allOnes (x : Fin 5) {i : Nat} (hi : i < 64) :
    digit 13 ((columnSum (Grid.fill (encLane 13 (BitVec.allOnes 64)))).get x) i = 5 := by
  rw [(hasDigits_columnSum (canonical_fill_allOnes (by decide)) x).digit_eq]
  simp only [digit_fill_allOnes (B := 13) (by decide) _ _ hi]

/-- Settles O55: the digits of THETA13 with the bounds of their summands; in the all-ones grid every digit
is 1. -/
theorem thetaDigitBounds : Obligations.ThetaDigitBounds := by
  refine ⟨fun a ha => ⟨fun x => ⟨columnSum_lt_pow ha x, fun i _ => ?_⟩, fun x y => ?_⟩, fun x y => ?_⟩
  · exact ⟨(hasDigits_columnSum ha x).digit_eq i, (hasDigits_columnSum ha x).digit_le i⟩
  · have hself := (hasDigits_of_canonical (by decide) (ha x y)).digit_le 0
    have hleft := (hasDigits_columnSum ha (x - 1)).digit_le 0
    have hright := (hasDigits_columnSum ha (x + 1)).digit_le 63
    have htheta := hasDigits_theta13 ha x y
    refine ⟨?_, fun i _ _ => htheta.digit_le i, ?_, ?_, htheta.digit_eq⟩
    · rw [digit_theta13_zero ha]
      omega
    · rwa [digit_theta13_top ha]
    · exact of_decide_eq_true ((Grid.all_iff _ _).mp (foldable_theta13 ha) x y)
  · have hones := canonical_fill_allOnes (B := 13) (by decide)
    refine ⟨?_, fun i h1 h63 => ?_, ?_⟩
    · rw [digit_theta13_zero hones, digit_fill_allOnes (by decide) x y (by decide),
        digit_columnSum_allOnes _ (by decide)]
    · rw [digit_theta13_inner hones x y h1, digit_fill_allOnes (by decide) x y (by omega),
        digit_columnSum_allOnes _ (by omega), digit_columnSum_allOnes _ (by omega)]
    · rw [digit_theta13_top hones, digit_columnSum_allOnes _ (by decide)]

/-- IOTA9 only adds. -/
theorem le_get_iota9 (a : Grid RedLane) (rnd : Nat) (x y : Fin 5) : a.get x y ≤ (iota9 a rnd).get x y := by
  rw [get_iota9]
  split
  next horigin =>
    obtain ⟨rfl, rfl⟩ := horigin
    exact Nat.le_add_right _ _
  next => exact le_rfl

/-- A grid whose rows begin with the given bits in position 0. -/
def bitRows (a b c : Bool) : Grid Lane :=
  Grid.ofFn fun x _ => (BitVec.ofBool (if x = 0 then a else if x = 1 then b else c)).setWidth 64

theorem digit_chi9_bitRows (a b c : Bool) :
    digit 9 ((chi9 ((bitRows a b c).map (encLane 9))).get 0 0) 0 = 2 * a.toNat + b.toNat + 3 * c.toNat := by
  have hbit (b : Bool) : bitNat ((BitVec.ofBool b).setWidth 64) 0 = b.toNat := by cases b <;> rfl
  rw [(hasDigits_chi9 (canonical_map_encLane (by decide) _) 0 0).digit_eq]
  simp only [digit_map_encLane (B := 9) (i := 0) (by decide) _ _ _ (by decide), bitRows, Grid.get_ofFn, hbit]
  rfl

theorem exists_chi_bits : ∀ v ≤ 6, ∃ a b c : Bool, 2 * a.toNat + b.toNat + 3 * c.toNat = v := by decide

/-- Settles O56: the digits of CHI9 and IOTA9 with the bounds of their summands. -/
theorem base9DigitBounds : Obligations.Base9DigitBounds := by
  refine ⟨fun a rnd ha => ⟨fun x y => ⟨?_, fun i _ => ?_⟩,
    fun x y => ⟨iota9_chi9_lt ha rnd x y, fun i _ => ?_⟩⟩, fun v hv => ?_, ?_, by norm_num⟩
  · exact (le_get_iota9 _ rnd x y).trans_lt (iota9_chi9_lt ha rnd x y)
  · exact ⟨(hasDigits_chi9 ha x y).digit_le i, (hasDigits_chi9 ha x y).digit_eq i⟩
  · split
    next horigin =>
      obtain ⟨rfl, rfl⟩ := horigin
      exact (hasDigits_iota9_origin ha rnd).digit_le i
    next horigin =>
      rw [get_iota9, if_neg horigin]
      exact (hasDigits_chi9 ha x y).digit_le i
  · obtain ⟨a, b, c, rfl⟩ := exists_chi_bits v hv
    exact ⟨_, canonical_map_encLane (by decide) _, digit_chi9_bitRows a b c⟩
  · have hones := canonical_fill_allOnes (B := 9) (by decide)
    have hconstant : bitNat (roundConstant 0) 0 = 1 := by decide
    rw [(hasDigits_iota9_origin hones 0).digit_eq, (hasDigits_chi9 hones 0 0).digit_eq, if_pos (by decide),
      hconstant]
    simp only [digit_fill_allOnes (B := 9) (i := 0) (by decide) _ _ (by decide)]

/-- 71 canonical lanes, each below a twelfth of `13^64`. -/
theorem theta13_lt {a : Grid RedLane} (ha : CanonicalGrid a) (x y : Fin 5) : (theta13 a).get x y < 2 ^ 240 := by
  have hself := ha.lt x y
  have hleft := columnSum_lt ha (x - 1)
  have hright := columnSum_lt ha (x + 1)
  rw [get_theta13]
  unfold RedLane at *
  omega

/-- Settles O57: THETA13 by its 71 lanes, the base-9 lanes by their 64 digits. -/
theorem redundantLaneWidths : Obligations.RedundantLaneWidths := by
  have hnine : (9 : Nat) ^ 64 < 2 ^ 203 := by norm_num
  refine ⟨fun a ha x y => ⟨((canonical_iff 13 _).mp (ha x y)).1, theta13_lt ha x y⟩, by norm_num, hnine,
    fun a rnd ha x y => (iota9_chi9_lt ha rnd x y).trans hnine⟩

/-! ## The steps one at a time -/

theorem Work.rho13to9Step_of_some {w : Work} {q : Grid RedLane} (h : rho13to9 w.Q = some q) :
    w.rho13to9Step = some { w with Q := q } := by
  rw [Work.rho13to9Step_eq, h]
  rfl

theorem Work.rho13to9Step_of_none {w : Work} (h : rho13to9 w.Q = none) : w.rho13to9Step = none := by
  rw [Work.rho13to9Step_eq, h]
  rfl

theorem Work.conv9to13Step_of_some {w : Work} {q : Grid RedLane} (h : conv9to13 w.Q = some q) :
    w.conv9to13Step = some { w with Q := q } := by
  rw [Work.conv9to13Step_eq, h]
  rfl

theorem Work.conv9to13Step_of_none {w : Work} (h : conv9to13 w.Q = none) : w.conv9to13Step = none := by
  rw [Work.conv9to13Step_eq, h]
  rfl

section RedundantWords

variable (s : State) {rnd : BitVec 5} {w : Work}

theorem exec_iota9 (h : rnd.toNat < 24) :
    exec (.iota9 rnd) s = .next { s with work := s.work.iota9Step rnd.toNat } :=
  (withRound_eq s rnd _).trans (if_pos h)

theorem exec_iota9_reserved (h : 24 ≤ rnd.toNat) :
    exec (.iota9 rnd) s = .next (s.raise ⟨.internalAssert, 0⟩) :=
  (withRound_eq s rnd _).trans (if_neg h.not_gt)

theorem exec_rho13to9 (hw : s.work.rho13to9Step = some w) :
    exec .rho13to9 s = .next { s with work := w } := by
  change execRho13to9 s = _
  rw [execRho13to9, hw]
  rfl

theorem exec_rho13to9_violated (hw : s.work.rho13to9Step = none) :
    exec .rho13to9 s = .next (s.raise ⟨.internalAssert, 0⟩) := by
  change execRho13to9 s = _
  rw [execRho13to9, hw]
  rfl

theorem exec_conv9to13 (hw : s.work.conv9to13Step = some w) :
    exec .conv9to13 s = .next { s with work := w } := by
  change execConv9to13 s = _
  rw [execConv9to13, hw]
  rfl

theorem exec_conv9to13_violated (hw : s.work.conv9to13Step = none) :
    exec .conv9to13 s = .next (s.raise ⟨.internalAssert, 0⟩) := by
  change execConv9to13 s = _
  rw [execConv9to13, hw]
  rfl

theorem exec_roundRed_violated (h : rnd.toNat < 24) (hw : s.work.roundRedStep rnd.toNat = none) :
    exec (.roundRed rnd) s = .next (s.raise ⟨.internalAssert, 0⟩) := by
  have hpass : decide (rnd.toNat < Config.numRounds) = true := decide_eq_true h
  change execRoundRed rnd s = _
  rw [execRoundRed, require_bind_pass hpass, hw]
  rfl

theorem exec_roundRed_reserved (h : 24 ≤ rnd.toNat) :
    exec (.roundRed rnd) s = .next (s.raise ⟨.internalAssert, 0⟩) := by
  have hfail : decide (rnd.toNat < Config.numRounds) = false := decide_eq_false h.not_gt
  change execRoundRed rnd s = _
  rw [execRoundRed, require_bind_fail hfail]
  rfl

end RedundantWords

/-- Settles O49: the steps lane by lane; the column sums that THETA13 keeps are the given ones. -/
theorem redundantStepsAreExactSums : Obligations.RedundantStepsAreExactSums := by
  intro s col hcol
  obtain rfl : (columnSum s.work.Q).get = col := funext fun x => by rw [get_columnSum, hcol]
  have hrow : Row.ofFn (columnSum s.work.Q).get = columnSum s.work.Q := Row.ext_get (Row.get_ofFn _)
  exact ⟨⟨{ s with work := s.work.theta13Step }, rfl, by rw [OnlyWork, hrow]; rfl, get_theta13 s.work.Q⟩,
    ⟨{ s with work := s.work.pi9Step }, rfl, rfl, get_relocate_target s.work.Q⟩,
    ⟨{ s with work := s.work.chi9Step }, rfl, rfl, get_chi9 s.work.Q⟩⟩

theorem encLane_eq_sum (B : Nat) (w : Lane) :
    encLane B w = ∑ i ∈ Finset.range 64, (w.getLsbD i).toNat * B ^ i := by
  rw [encLane, sumBelow_eq_sum]
  exact Finset.sum_congr rfl fun i _ => Nat.mul_comm _ _

/-- Settles O50: a legal index selects its constant, whose encoding is the digit sum; any other is fault
entry. -/
theorem iota9AddsTwiceTheConstant : Obligations.Iota9AddsTwiceTheConstant := by
  refine fun s rnd => ⟨fun h => ?_, fun h => ⟨_, exec_iota9_reserved s h, faulted_raise s _⟩⟩
  refine ⟨_, _, exec_iota9 s h, rfl, getElem?_RC h, fun x y => ?_⟩
  rw [← encLane_eq_sum]
  exact get_iota9 s.work.Q rnd.toNat x y

/-- A check of every lane fails where it fails of one. -/
theorem all_eq_false {α : Type} {p : α → Bool} {a : Grid α} {x y : Fin 5} (h : p (a.get x y) = false) :
    a.all p = false :=
  Bool.eq_false_iff.mpr fun hall => by simp [(Grid.all_iff p a).mp hall x y] at h

theorem rho13to9_eq_none {a : Grid RedLane} {x y : Fin 5} (h : 13 ^ 65 ≤ a.get x y) : rho13to9 a = none := by
  have hbad : foldable (a.get x y) = false := decide_eq_false h.not_gt
  rw [rho13to9, all_eq_false hbad]
  rfl

theorem conv9to13_eq_none {a : Grid RedLane} {x y : Fin 5} (h : 9 ^ 64 ≤ a.get x y) : conv9to13 a = none := by
  have hbad : convertible (a.get x y) = false := decide_eq_false h.not_gt
  rw [conv9to13, all_eq_false hbad]
  rfl

/-- Digit `i` of a lane goes to position `i + r`, as its folded bit (R213). -/
theorem digit_conv13to9Rot (n r : Nat) {i : Nat} (hi : i < 64) :
    digit 9 (conv13to9Rot n r) ((i + r) % 64) = foldedBit n i := by
  have hback : ((i + r) % 64 + (64 - r % 64)) % 64 = i := by omega
  rw [conv13to9Rot_eq_encLane, digit_encLane (by decide), if_pos (by omega), bitNat_rotl _ _ (by omega), hback,
    fold13, bitNat_wordOfBits _ (fun i _ => foldedBit_le_one n i) hi]

/-- Settles O51: the conversion of a lane is an encoding, whose digits are the folded bits rotated. -/
theorem rho13to9FoldsAndRotates : Obligations.Rho13to9FoldsAndRotates := by
  refine fun s => ⟨fun h => ?_, fun ⟨x, y, h⟩ => ?_⟩
  · have hall : s.work.Q.all foldable = true := (Grid.all_iff _ _).mpr fun x y => decide_eq_true (h x y)
    obtain ⟨b, hb, hlane⟩ := rho13to9_of_foldable hall
    refine ⟨_, exec_rho13to9 s (Work.rho13to9Step_of_some hb), rfl, fun x y => ?_⟩
    change b.get x y < 9 ^ 64 ∧ ∀ i, i < 64 → digit 9 (b.get x y) _ = _
    rw [hlane]
    refine ⟨(conv13to9Rot_eq_encLane _ _).trans_lt (encLane_lt (by decide) _), fun i hi => ?_⟩
    rw [digit_conv13to9Rot _ _ hi, foldedBit]
    simp only [digit, pow_zero, Nat.div_one]
  · exact ⟨_, exec_rho13to9_violated s (Work.rho13to9Step_of_none (rho13to9_eq_none h)), faulted_raise s _⟩

theorem conv9to13Lane_eq_sum (n : Nat) : conv9to13Lane n =
    ∑ i ∈ Finset.range 64, (if n / 9 ^ i % 9 ∈ [2, 3, 6, 7] then 1 else 0) * 13 ^ i := by
  rw [conv9to13Lane, sumBelow_eq_sum]
  refine Finset.sum_congr rfl fun i _ => ?_
  have hentry := t9_eq_one_iff (digit 9 n i) (digit_lt (by decide) n i)
  have hbit := t9_le_one (digit 9 n i)
  rw [Nat.mul_comm]
  congr 1
  split
  next h => exact hentry.mpr h
  next h =>
    have := mt hentry.mp h
    omega

/-- Settles O52: the table's bit of a digit is 1 exactly for four of them. -/
theorem conv9to13ReencodesDigits : Obligations.Conv9to13ReencodesDigits := by
  refine fun s => ⟨fun h => ?_, fun ⟨x, y, h⟩ => ?_⟩
  · have hall : s.work.Q.all convertible = true := (Grid.all_iff _ _).mpr fun x y => decide_eq_true (h x y)
    have hconv : conv9to13 s.work.Q = some (s.work.Q.map conv9to13Lane) := if_pos hall
    refine ⟨_, exec_conv9to13 s (Work.conv9to13Step_of_some hconv), rfl, fun x y => ?_⟩
    rw [← conv9to13Lane_eq_sum]
    exact Grid.get_map _ _ x y
  · exact ⟨_, exec_conv9to13_violated s (Work.conv9to13Step_of_none (conv9to13_eq_none h)), faulted_raise s _⟩

/-! ## ROUND_RED and PERMUTE_RED -/

/-- After RHO13TO9 no step of a round can fail: its lanes are encodings. -/
theorem exists_conversions {a : Grid RedLane} (ha : a.all foldable = true) (rnd : Nat) :
    ∃ b q, rho13to9 a = some b ∧ conv9to13 (iota9 (chi9 (relocate b)) rnd) = some q := by
  have hconv := conv9to13_iota9 (relocate (rho (a.map fold13))) rnd
  rw [← relocate_map] at hconv
  exact ⟨_, _, rho13to9_eq ha, hconv⟩

theorem Work.roundRedStep_of_conversions {u v w : Work} {r : Nat} (hrho : w.theta13Step.rho13to9Step = some u)
    (hconv : (u.pi9Step.chi9Step.iota9Step r).conv9to13Step = some v) : w.roundRedStep r = some v := by
  rw [Work.roundRedStep, hrho]
  exact hconv

/-- The six words of a round, where both conversions complete. -/
theorem issueAll_roundRedSteps (s : State) {rnd : BitVec 5} {u v : Work} (h : rnd.toNat < 24)
    (hrho : s.work.theta13Step.rho13to9Step = some u)
    (hconv : (u.pi9Step.chi9Step.iota9Step rnd.toNat).conv9to13Step = some v) :
    issueAll [0x008, 0x009, 0x00A, 0x00B, uopWord 0x0C rnd, 0x00D] s = some { s with work := v } := by
  rw [issueAll_cons (w := 0x008) (i := .theta13) rfl rfl rfl,
    issueAll_cons (w := 0x009) (i := .rho13to9) rfl rfl
      (exec_rho13to9 { s with work := s.work.theta13Step } hrho),
    issueAll_cons (w := 0x00A) (i := .pi9) rfl rfl rfl,
    issueAll_cons (w := 0x00B) (i := .chi9) rfl rfl rfl,
    issueAll_cons (i := .iota9 rnd) (roundIndexOk_of_lt h) rfl (exec_iota9 _ h),
    issueAll_cons (w := 0x00D) (i := .conv9to13) rfl rfl
      (exec_conv9to13 { s with work := u.pi9Step.chi9Step.iota9Step rnd.toNat } hconv)]
  rfl

/-- Settles O53: of the six words only RHO13TO9 can fail, since what it makes CONV9TO13 can convert. -/
theorem roundRedIsTheSixSteps : Obligations.RoundRedIsTheSixSteps := by
  refine fun s rnd => ⟨fun h hlt => ?_, fun h ⟨x, y, hxy⟩ => ?_, fun h => ?_⟩
  · have hall : (theta13 s.work.Q).all foldable = true :=
      (Grid.all_iff _ _).mpr fun x y => decide_eq_true (hlt x y)
    obtain ⟨b, q, hb, hq⟩ := exists_conversions hall rnd.toNat
    have hrho := Work.rho13to9Step_of_some (w := s.work.theta13Step) hb
    have hconv := Work.conv9to13Step_of_some
      (w := ({ s.work.theta13Step with Q := b } : Work).pi9Step.chi9Step.iota9Step rnd.toNat) hq
    exact ⟨_, exec_roundRed s h (Work.roundRedStep_of_conversions hrho hconv), rfl,
      issueAll_roundRedSteps s h hrho hconv⟩
  · have hround : roundRed s.work.Q rnd.toNat = none := by
      rw [roundRed, rho13to9_eq_none hxy]
      rfl
    rcases Work.roundRedStep_cases s.work rnd.toNat with ⟨-, hnone⟩ | ⟨v, -, hv, -⟩
    · exact ⟨_, exec_roundRed_violated s h hnone, faulted_raise s _⟩
    · cases hround.symm.trans hv
  · exact ⟨_, exec_roundRed_reserved s h, faulted_raise s _⟩

/-- Settles O54: the datapath of ROUND_RED is `roundRed` of the working grid. -/
theorem roundRedIsRoundOfTheDecodedGrid : Obligations.RoundRedIsRoundOfTheDecodedGrid := by
  intro s rnd w h hQ
  have hround := roundRed_map_encLane w rnd.toNat
  rw [← hQ] at hround
  rcases Work.roundRedStep_cases s.work rnd.toNat with ⟨hnone, -⟩ | ⟨v, hv, hvQ, hframe⟩
  · cases hround.symm.trans hnone
  · exact ⟨_, exec_roundRed s h hv, onlyWork_of_eq hframe, Option.some.inj (hvQ.symm.trans hround)⟩

theorem requireCanonical_of_canonicalGrid {a : Grid RedLane} (ha : CanonicalGrid a) :
    requireCanonical a = .ok () := by
  have hnone : firstNonCanonical 0 a.lanes = none := firstNonCanonical_none.mpr fun n hn => by
    obtain ⟨x, y, rfl⟩ := (a.mem_lanes n).mp hn
    exact ha x y
  rw [requireCanonical, hnone]

/-- A lane of the 800 response bytes, if it fits its 32. -/
theorem leNat_field_bytesOfGrid256 {a : Grid RedLane} {x y : Fin 5} (h : a.get x y < 2 ^ 256) :
    leNat (field (32 * laneIndex x y) 32 (bytesOfGrid256 a)) = a.get x y := by
  rw [bytesOfGrid256, field_flatMap_chunks 32 leBytes256 length_leBytes256 _ _ _ (a.lanes_getElem x y),
    leNat_leBytes256 h]

/-- Settles O59: the datapath of PERMUTE_RED is `KECCAK_F_RED` of the operand grid. -/
theorem permuteRedRespondsWithEncodedKeccakF : Obligations.PermuteRedRespondsWithEncodedKeccakF := by
  intro s g w hg
  have hexec := exec_permuteRed_of_requireCanonical
    (requireCanonical_of_canonicalGrid (hg ▸ canonicalGrid_map_encLane w)) s
  have hkeccak := keccakFRed_map_encLane w
  rw [← hg] at hkeccak
  rcases Work.keccakFRedStep_cases { s.work with Q := redLanes g } with ⟨hnone, -⟩ | ⟨v, hv, hvQ, hframe, -⟩
  · cases hkeccak.symm.trans hnone
  · rw [conclude_internally, hv] at hexec
    refine ⟨_, _, hexec, onlyResponse_respond _ hframe, length_bytesOfGrid256 _, fun x y => ?_⟩
    have hlane : v.Q.get x y = encLane 13 ((keccakF w).get x y) := by
      rw [Option.some.inj (hvQ.symm.trans hkeccak), get_map_encLane]
    have hfits : v.Q.get x y < 2 ^ 256 :=
      hlane.trans_lt ((encLane_lt (by decide) _).trans (by norm_num))
    rw [leNat_field_bytesOfGrid256 hfits, hlane]

/-- Every lane index is that of a lane (R72). -/
theorem exists_laneIndex {k : Nat} (hk : k < 25) : ∃ x y : Fin 5, laneIndex x y = k :=
  ⟨⟨k % 5, by omega⟩, ⟨k / 5, by omega⟩, Nat.mod_add_div k 5⟩

/-- The check of PERMUTE_RED names the first lane that is not canonical. -/
theorem eq_laneIndex_of_firstNonCanonical {a : Grid RedLane} {k : Nat} {x y : Fin 5}
    (hk : firstNonCanonical 0 a.lanes = some k) (hbad : canonical 13 (a.get x y) = false)
    (hlow : ∀ x' y', laneIndex x' y' < laneIndex x y → canonical 13 (a.get x' y') = true) :
    k = laneIndex x y := by
  obtain ⟨-, hlt, ⟨n, hn, hnbad⟩, hfirst⟩ := firstNonCanonical_some hk
  obtain ⟨x', y', rfl⟩ := exists_laneIndex (k := k) (by simpa using hlt)
  rw [Nat.sub_zero] at hn hfirst
  have hle : ¬ laneIndex x y < laneIndex x' y' := fun h => by
    simp [hfirst _ _ h (a.lanes_getElem x y)] at hbad
  have hge : ¬ laneIndex x' y' < laneIndex x y := fun h => by
    cases (a.lanes_getElem x' y').symm.trans hn
    simp [hlow x' y' h] at hnbad
  omega

/-- Settles O60: the lane that the check names is the given one. -/
theorem permuteRedRejectsNonCanonicalLanes : Obligations.PermuteRedRejectsNonCanonicalLanes := by
  intro s g x y hbad hlow
  have hlane (x y : Fin 5) : (redLanes g).get x y = (g.get x y).toNat := Grid.get_map _ g x y
  simp only [← hlane] at hbad hlow
  have hcontra (hall : CanonicalGrid (redLanes g)) : False := by simp [hall x y] at hbad
  rcases execPermuteRed_cases g s with ⟨k, hk, -, hexec⟩ | ⟨hall, -⟩ | ⟨_, _, hall, -⟩
  · obtain rfl := eq_laneIndex_of_firstNonCanonical hk hbad hlow
    exact ⟨_, hexec, faulted_raise s _⟩
  · exact (hcontra hall).elim
  · exact (hcontra hall).elim

end Sys2Proof.Machine

/-! # 44_sponge.md: the padding rule, and the words PAD, ABSORB and SQUEEZE

The padding is one byte, or a first byte, zeros and a last byte, and everything about it is read off these
two forms. The digest is read through the byte view of the state: byte `k` of the 200 bytes of a grid is
state byte `k` (20_memory.md R73). Of the datapath ABSORB leaves `Q` and `P` alone. -/

namespace Sys2Proof.Machine

/-! ## The padding rule -/

section Padding

variable {n rate : Nat}

theorem padding_of_one (h : rate - n % rate = 1) : padding n rate = [0x81] := if_pos h

/-- The padding of `z + 2` bytes has `z` zeros (R251). -/
theorem padding_of_add_two {z : Nat} (h : rate - n % rate = z + 2) :
    padding n rate = 0x01 :: (List.replicate z 0x00 ++ [0x80]) := by
  have hlong : z + 2 ≠ 1 := by omega
  rw [padding, h, if_neg hlong]
  rfl

/-- The two forms of the padding are all there are. -/
theorem padding_forms (hrate : 0 < rate) : rate - n % rate = 1 ∨ ∃ z, rate - n % rate = z + 2 := by
  have hmod := Nat.mod_lt n hrate
  by_cases hone : rate - n % rate = 1
  · exact .inl hone
  · exact .inr ⟨rate - n % rate - 2, by omega⟩

theorem length_padding_of_pos (hrate : 0 < rate) : (padding n rate).length = rate - n % rate := by
  rcases padding_forms (n := n) hrate with hone | ⟨z, hz⟩
  · rw [padding_of_one hone, hone]; rfl
  · rw [padding_of_add_two hz, hz]; simp

/-- The padded length is the next multiple of the rate (R253). -/
theorem add_length_padding (hrate : 0 < rate) : n + (padding n rate).length = rate * (n / rate + 1) := by
  have hmod := Nat.mod_lt n hrate
  have hdiv := Nat.div_add_mod n rate
  rw [length_padding_of_pos hrate, Nat.mul_succ]
  omega

theorem getElem?_padding_first {z : Nat} (h : rate - n % rate = z + 2) : (padding n rate)[0]? = some 0x01 := by
  rw [padding_of_add_two h, List.getElem?_cons_zero]

theorem getElem?_padding_inner {z j : Nat} (h : rate - n % rate = z + 2) (hj : j < z) :
    (padding n rate)[j + 1]? = some 0x00 := by
  rw [padding_of_add_two h, List.getElem?_cons_succ, List.getElem?_append_left (by simpa using hj),
    List.getElem?_replicate_of_lt hj]

theorem getElem?_padding_last {z : Nat} (h : rate - n % rate = z + 2) :
    (padding n rate)[z + 1]? = some 0x80 := by
  rw [padding_of_add_two h, List.getElem?_cons_succ]
  simp

end Padding

/-- Settles O24: the one-byte form, and the long form byte by byte. -/
theorem paddingRule : Obligations.PaddingRule := by
  refine ⟨fun n rate => length_padding_of_pos, fun n rate => padding_of_one, ?_, ?_, fun m => rfl⟩
  · intro n rate hrate hlong
    obtain ⟨z, hz⟩ := (padding_forms (n := n) hrate).resolve_left hlong
    rw [hz]
    refine ⟨getElem?_padding_first hz, getElem?_padding_last hz, fun j hpos hj => ?_⟩
    obtain ⟨i, rfl⟩ := Nat.exists_eq_add_of_le' hpos
    exact getElem?_padding_inner hz (by omega)
  · intro m rate hrate
    rw [List.length_append, add_length_padding hrate]

/-! ## PAD -/

/-- The message of an INGEST operand buffer is what follows its 8-byte length field (R103). -/
theorem messageOf_ofBytes (len : BitVec 64) (m : List Byte) :
    messageOf (Memory.ofBytes (leBytes64 len ++ m)) = m := by
  rw [messageOf, readFrom_ofBytes, List.drop_left' (length_leBytes64 len)]

/-- Settles O31: PAD writes `P` alone, and the message is read back from INGEST's operand buffer. -/
theorem padBuildsThePaddedMessage : Obligations.PadBuildsThePaddedMessage :=
  ⟨fun s => ⟨{ s with work := s.work.padStep (messageOf s.operand) }, rfl, rfl⟩, messageOf_ofBytes⟩

/-! ## ABSORB -/

@[simp] theorem Work.absorbBlockStep_Q (w : Work) (k : Nat) : (w.absorbBlockStep k).Q = w.Q := by
  simp [Work.absorbBlockStep]

/-- What absorbing blocks on the datapath leaves alone (10_state.md R35). -/
theorem Work.foldl_absorbBlockStep_frame (l : List Nat) (w : Work) {v : Work}
    (hv : l.foldl Work.absorbBlockStep w = v) :
    v = { w with A := v.A, c := v.c, B := v.B, rnd := v.rnd, k := v.k } := by
  have hQ : v.Q = w.Q := hv ▸ foldl_keeps Work.absorbBlockStep Work.Q Work.absorbBlockStep_Q l w
  have hP : v.P = w.P := hv ▸ foldl_keeps Work.absorbBlockStep Work.P Work.absorbBlockStep_P l w
  rw [← hQ, ← hP]

/-- ABSORB of whole blocks, with the registers of the datapath that it does not write. -/
theorem State.absorbStep_frame (s : State) (h : s.work.P.length % 136 = 0) :
    ∃ w, s.absorbStep = .ok { s with work := w, S := absorb s.S s.work.P } ∧
      w = { s.work with A := w.A, c := w.c, B := w.B, rnd := w.rnd, k := w.k } := by
  have hpass : decide (s.work.P.length % Config.rateBytes = 0) = true := decide_eq_true h
  refine ⟨_, ?_, Work.foldl_absorbBlockStep_frame (List.range (s.work.P.length / Config.rateBytes))
    { s.work with A := s.S } rfl⟩
  rw [State.absorbStep, require_bind_pass hpass]
  simp only [Work.foldl_absorbBlockStep_A, absorb]
  rfl

theorem exec_absorb_of_absorbStep {s t : State} (h : s.absorbStep = .ok t) : exec .absorb s = .next t :=
  congrArg s.conclude h

theorem exec_absorb_bad (s : State) (h : s.work.P.length % 136 ≠ 0) :
    exec .absorb s = .next (s.raise ⟨.absorbLength, 0⟩) :=
  congrArg s.conclude (s.absorbStep_bad h)

/-- Settles O32: whole blocks by the datapath's frame, any other buffer by fault entry. -/
theorem absorbUpdatesSOrRaises : Obligations.AbsorbUpdatesSOrRaises := by
  refine fun s => ⟨fun h => ?_, fun h => ⟨_, exec_absorb_bad s h, faulted_raise s _⟩⟩
  obtain ⟨w, hw, hframe⟩ := s.absorbStep_frame h
  refine ⟨_, exec_absorb_of_absorbStep hw, rfl, ?_⟩
  rw [← hframe]

/-! ## SQUEEZE -/

/-- The 200 bytes of a grid are its state bytes (R73). -/
theorem getElem?_bytesOfGrid64 (a : Grid Lane) {k : Nat} (hk : k < 200) :
    (bytesOfGrid64 a)[k]? = some (stateByte a k) := by
  have hbyte : k % 8 < 8 := Nat.mod_lt k (by decide)
  obtain ⟨x, y, hxy⟩ := exists_laneIndex (k := k / 8) (by omega)
  have hlane : field (8 * (k / 8)) 8 (bytesOfGrid64 a) = leBytes64 (a.get x y) :=
    field_flatMap_chunks 8 leBytes64 length_leBytes64 _ _ _ (hxy ▸ a.lanes_getElem x y)
  have hget : (bytesOfGrid64 a).getD k 0 = stateByte a k := calc
    _ = (field (8 * (k / 8)) 8 (bytesOfGrid64 a)).getD (k % 8) 0 := by
      rw [getD_field _ _ hbyte, Nat.div_add_mod]
    _ = (le64 (leBytes64 (a.get x y))).extractLsb' (8 * (k % 8)) 8 := by
      rw [hlane, extractLsb'_le64 _ hbyte]
    _ = stateByte a k := by
      rw [le64_leBytes64, stateByte, ← hxy, Grid.getD_lanes_laneIndex]
  have hlen : k < (bytesOfGrid64 a).length := by simpa using hk
  rw [← hget, List.getD_eq_getElem _ _ hlen, List.getElem?_eq_getElem hlen]

@[simp] theorem length_squeeze (a : Grid Lane) : (squeeze a).length = 32 :=
  List.length_take_of_le (by rw [length_bytesOfGrid64]; decide)

/-- The digest is state bytes 0..31 (R256). -/
theorem getElem?_squeeze (a : Grid Lane) {k : Nat} (hk : k < 32) :
    (squeeze a)[k]? = some (stateByte a k) :=
  (List.getElem?_take_of_lt hk).trans (getElem?_bytesOfGrid64 a (by omega))

/-- Settles O33: a write of the 32 digest bytes from response address 0. -/
theorem squeezeWritesTheDigest : Obligations.SqueezeWritesTheDigest := by
  refine fun s => ⟨s.squeezeStep, rfl, fun k hk => ?_, fun addr haddr => ?_, rfl⟩
  · rw [State.squeezeStep_response, read_write, if_pos (by simpa using hk), Nat.sub_zero,
      getElem?_squeeze s.S hk]
  · rw [State.squeezeStep_response, read_write, if_neg (by simpa using haddr)]

end Sys2Proof.Machine

/-! # 45_hash_controller.md: NEW, INGEST and FINALIZE

One equation per command: NEW and FINALIZE are a response of known bytes, and INGEST within the limit is
the response to what PAD and then ABSORB leave. The statements chain these equations. -/

namespace Sys2Proof.Machine

/-! ## What each command does -/

theorem exec_new (s : State) : exec .new s = .next (({ s with S := Grid.fill 0 } : State).respond []) := rfl

/-- FINALIZE responds with the digest of `S` (R283). -/
theorem exec_finalize (s : State) : exec .finalize s = .next (s.respond (squeeze s.S)) := rfl

/-- INGEST within the limit (R282): ABSORB after PAD cannot fail, since a padded message is whole blocks;
what it leaves is the answer, with an empty response. -/
theorem exec_ingest {len : BitVec 64} (h : len ≤ Config.maxMessageBytes) (m : List Byte) (s : State) :
    ∃ w, ({ s with work := s.work.padStep m } : State).absorbStep =
        .ok { s with work := w, S := absorb s.S (padMessage m) } ∧
      exec (.ingest len m) s =
        .next (({ s with work := w, S := absorb s.S (padMessage m) } : State).respond []) ∧
      w = { s.work with
        A := w.A, c := w.c, B := w.B, rnd := w.rnd, P := padMessage m, k := w.k } := by
  have hpass : decide (len ≤ Config.maxMessageBytes) = true := decide_eq_true h
  obtain ⟨w, hw, hframe⟩ :=
    State.absorbStep_frame { s with work := s.work.padStep m } (length_padMessage_mod m)
  refine ⟨w, hw, ?_, hframe⟩
  change ingestWith Config.maxMessageBytes len m s = _
  rw [ingestWith, require_bind_pass hpass, hw]
  rfl

/-! ## NEW and INGEST -/

/-- Settles O21: the frame is the encoding of NEW, and the equation of NEW. -/
theorem newZeroesS : Obligations.NewZeroesS :=
  ⟨decodeFrame_of_encode (i := .new) rfl rfl, fun s => ⟨_, exec_new s, Grid.get_fill 0, rfl, respond_eq _ []⟩⟩

/-- Settles O22: the equation of INGEST, with the registers of the datapath that it does not write. -/
theorem ingestAbsorbsThePaddedMessage : Obligations.IngestAbsorbsThePaddedMessage := by
  intro len msg s _ hlimit
  obtain ⟨w, -, hexec, hframe⟩ := exec_ingest hlimit msg s
  refine ⟨_, hexec, rfl, ?_⟩
  rw [respond_work, ← hframe, respond_eq]
  rfl

/-- Settles O23: over the limit the frame ends at its length field, and the command is fault entry. -/
theorem overlongIngestRaisesMsgTooLong : Obligations.OverlongIngestRaisesMsgTooLong := by
  refine ⟨fun limit len msg s h => ⟨_, ingestWith_over h msg s, faulted_raise s _⟩, ?_, fun _ _ _ => rfl⟩
  intro limit len rest h
  have hok : ingestOk limit len [] = true := by simp [ingestOk, h]
  exact takeIngest_eq_command_iff.mpr ⟨len, [], hok, rfl, (List.append_nil _).symm, rfl⟩

/-- Settles O34: the word PAD reads the message back from the operand buffer, and the word ABSORB is the
step that INGEST takes after PAD. -/
theorem ingestIsPadThenAbsorb : Obligations.IngestIsPadThenAbsorb := by
  intro len msg s _ hlimit hoperand
  obtain ⟨w, habsorb, hexec, -⟩ := exec_ingest hlimit msg s
  have hpad : exec .pad s = .next { s with work := s.work.padStep msg } := by
    rw [← messageOf_ofBytes len msg, ← hoperand]
    rfl
  have hwords : issueAll [0x010, 0x011] s = some { s with work := w, S := absorb s.S (padMessage msg) } :=
    (issueAll_cons (w := 0x010) rfl rfl hpad _).trans
      (issueAll_cons (w := 0x011) rfl rfl (exec_absorb_of_absorbStep habsorb) [])
  exact ⟨_, _, hexec, hwords, rfl, rfl, rfl⟩

/-- Settles O30: the second INGEST absorbs into the `S` that the first one left. -/
theorem ingestIsNotIncremental : Obligations.IngestIsNotIncremental := by
  intro s len₁ len₂ m₁ m₂ _ _ hlimit₁ hlimit₂
  obtain ⟨w₁, -, hexec₁, -⟩ := exec_ingest hlimit₁ m₁ s
  obtain ⟨w₂, -, hexec₂, -⟩ := exec_ingest hlimit₂ m₂
    (({ s with work := w₁, S := absorb s.S (padMessage m₁) } : State).respond [])
  exact ⟨_, _, hexec₁, hexec₂, rfl⟩

/-! ## FINALIZE -/

/-- Settles O26: the frame is the encoding of FINALIZE, and the digest is state bytes 0..31. -/
theorem finalizeRespondsWithTheDigest : Obligations.FinalizeRespondsWithTheDigest :=
  ⟨decodeFrame_of_encode (i := .finalize) rfl rfl, fun s => ⟨_, squeeze s.S, exec_finalize s,
    onlyResponse_respond (squeeze s.S) rfl, length_squeeze s.S, fun _ => getElem?_squeeze s.S⟩⟩

/-- Settles O27: no instruction between the two writes `S`, and FINALIZE itself does not. -/
theorem finalizeIsIdempotent : Obligations.FinalizeIsIdempotent := by
  intro is s t u v _ his ht hrun hv
  cases (exec_finalize s).symm.trans ht
  cases (exec_finalize u).symm.trans hv
  have hS : u.S = s.S := hrun.keeps State.S fun i hi s' u' hexec => by
    obtain ⟨hnew, hingest, habsorb⟩ := his i hi
    exact onlyHashCommandsWriteS i s' u' hexec hnew hingest habsorb
  exact ⟨squeeze s.S, length_squeeze s.S, respond_tx s _, by rw [respond_tx, hS]⟩

theorem squeeze_fill_zero : squeeze (Grid.fill 0) = List.replicate 32 0 := by decide

/-- Settles O28: the digest of the all-zero grid, which is what reset and NEW write to `S`. -/
theorem finalizeOfZeroStateIsZero : Obligations.FinalizeOfZeroStateIsZero := by
  refine ⟨fun s hs => ⟨_, exec_finalize s, ?_⟩, Grid.get_fill 0, fun s t ht => ?_⟩
  · have hzero : s.S = Grid.fill 0 := Grid.ext_get fun x y => by rw [hs, Grid.get_fill]
    rw [respond_tx, hzero, squeeze_fill_zero]
  · cases (exec_new s).symm.trans ht
    exact Grid.get_fill 0

/-! ## The command sequence of a hash -/

/-- Settles O29: the three equations one after the other; each command adds its response to the delivered
ones and keeps STATUS. -/
theorem hashCommandsComputeKeccak256 : Obligations.HashCommandsComputeKeccak256 := by
  intro s len m _ hlimit
  obtain ⟨w, -, hexec, -⟩ := exec_ingest hlimit m (({ s with S := Grid.fill 0 } : State).respond [])
  refine ⟨_, _, _, exec_new s, hexec, exec_finalize _, ?_, rfl⟩
  simp only [respond_tx, respond_S, List.append_assoc, List.cons_append, List.nil_append]
  rfl

end Sys2Proof.Machine

/-! # 60_exceptions.md: fault entry, the halted block, and what frames alone can raise

Every instruction completes or is fault entry (`exec_ends`), so the machine always has a next state. The
fields of STATUS make up its number, which gives the number that fault entry latches. A halted block is
known after any number of steps by one equation (`runSteps_of_halted`). A frame's command can raise none of
the internal causes: PERMUTE_RED checks that its lanes are canonical, and INGEST absorbs whole blocks. -/

namespace Sys2Proof.Machine

/-! ## Every step has a next state -/

theorem exists_exec (i : Instr) (s : State) : ∃ t, exec i s = .next t := by
  rcases exec_ends i s with ⟨t, h, -⟩ | ⟨r, h, -⟩
  · exact ⟨t, h⟩
  · exact ⟨_, h⟩

/-- Settles O17: a step is an instruction, fault entry or a host event, and each has a next state. -/
theorem machineNeverStops : Obligations.MachineNeverStops := by
  refine ⟨exists_exec, fun s => ?_⟩
  rcases step_cases s with ⟨-, h⟩ | ⟨-, ⟨w, ws, i, -, -, h⟩ | ⟨w, ws, why, -, -, h⟩ |
    ⟨i, operand, rest, -, -, h⟩ | ⟨op, -, -, h⟩ | ⟨-, -, h⟩⟩ <;> rw [h]
  case inr.inl | inr.inr.inr.inl => exact exists_exec i _
  all_goals exact ⟨_, rfl⟩

/-! ## STATUS as a number -/

theorem faultBit_eq (st : BitVec 16) : faultBit st = decide (st.toNat % 2 = 1) :=
  Nat.testBit_zero st.toNat

theorem toNat_reservedField (st : BitVec 16) : (reservedField st).toNat = st.toNat / 2 % 8 := by
  simp [reservedField, BitVec.extractLsb'_toNat, Nat.shiftRight_eq_div_pow]

theorem toNat_causeField (st : BitVec 16) : (causeField st).toNat = st.toNat / 16 % 16 := by
  simp [causeField, BitVec.extractLsb'_toNat, Nat.shiftRight_eq_div_pow]

theorem toNat_infoField (st : BitVec 16) : (infoField st).toNat = st.toNat / 256 := by
  have hlt : st.toNat / 256 < 256 := Nat.div_lt_of_lt_mul st.isLt
  simp [infoField, BitVec.extractLsb'_toNat, Nat.shiftRight_eq_div_pow, Nat.mod_eq_of_lt hlt]

/-- STATUS is the number that its four fields make up (10_state.md R32). -/
theorem toNat_status_eq (st : BitVec 16) : st.toNat = (infoField st).toNat * 256 +
    (causeField st).toNat * 16 + (reservedField st).toNat * 2 + (faultBit st).toNat := by
  have hbit : (faultBit st).toNat = st.toNat % 2 := by
    rw [faultBit_eq]
    rcases Nat.mod_two_eq_zero_or_one st.toNat with h | h <;> simp [h]
  rw [toNat_infoField, toNat_causeField, toNat_reservedField, hbit]
  omega

/-- Fault entry latches INFO, CAUSE and FAULT around the reserved bits (R312). -/
theorem toNat_latchFault (r : Raise) (st : BitVec 16) : (latchFault r st).toNat =
    r.info.toNat * 256 + r.cause.code.toNat * 16 + (reservedField st).toNat * 2 + 1 := by
  simpa using toNat_status_eq (latchFault r st)

theorem halted_raise (s : State) (r : Raise) : (s.raise r).halted = true :=
  faultBit_latchFault r s.status

/-- Settles O16: fault entry is `State.raise`, the number is that of the latched fields, and an instruction
completes or is fault entry. -/
theorem faultEntryIsAllOrNothing : Obligations.FaultEntryIsAllOrNothing := by
  refine ⟨fun s cause info => ⟨faulted_raise s _, halted_raise s _⟩, fun s cause info hres => ?_,
    fun st => ⟨faultBit_eq st, toNat_reservedField st, toNat_causeField st, toNat_infoField st⟩,
    fun i s t ht => ?_⟩
  · refine ⟨cause.code.toNat, by cases cause <;> decide, ?_⟩
    rw [State.raise_status, toNat_latchFault, toNat_reservedField, hres]
  · rcases exec_ends i s with ⟨u, hu, hc⟩ | ⟨r, hu, -⟩ <;> cases hu.symm.trans ht
    · exact .inl hc.status
    · exact .inr ⟨r.cause, r.info, faulted_raise s r, halted_raise s r, rfl, rfl⟩

/-! ## The halted block -/

theorem hostEvent_assertReset {s : State} {es : List HostEvent} (hin : s.inbox = .assertReset :: es) :
    s.hostEvent = ({ s with inbox := es } : State).powerOnReset := by
  simp only [State.hostEvent, hin]

theorem step_of_halted {s : State} (h : s.halted = true) : step s = .next s.hostEvent :=
  step_of_stopped (by simp [h])

/-- What the host does to a halted block, reset aside, changes nothing but what is still to come from the
host and whether reset is asserted: a byte is discarded (R311). -/
theorem hostEvent_of_halted {s : State} (hhalted : s.halted = true)
    (hreset : HostEvent.assertReset ∉ s.inbox) :
    ∃ es inReset, s.hostEvent = { s with inbox := es, inReset := inReset } ∧
      HostEvent.assertReset ∉ es := by
  rcases hostEvent_cases s with ⟨-, e⟩ | ⟨b, es, hin, -, e⟩ | ⟨b, es, -, hrun, -⟩ | ⟨es, hin, -⟩ |
    ⟨es, hin, e⟩ | ⟨es, hin, e⟩
  · exact ⟨s.inbox, s.inReset, e, hreset⟩
  · exact ⟨es, s.inReset, e, fun h => hreset (hin ▸ List.mem_cons_of_mem _ h)⟩
  · simp [hhalted] at hrun
  · exact absurd (hin ▸ List.mem_cons_self) hreset
  · exact ⟨es, false, e, fun h => hreset (hin ▸ List.mem_cons_of_mem _ h)⟩
  · exact ⟨es, s.inReset, e, fun h => hreset (hin ▸ List.mem_cons_of_mem _ h)⟩

/-- A halted block without reset, after any number of steps: only the host's side has changed. -/
theorem runSteps_of_halted (n : Nat) {s : State} (hhalted : s.halted = true)
    (hreset : HostEvent.assertReset ∉ s.inbox) :
    ∃ es inReset, runSteps n s = { s with inbox := es, inReset := inReset } := by
  induction n generalizing s with
  | zero => exact ⟨s.inbox, s.inReset, rfl⟩
  | succ n ih =>
    obtain ⟨es, inReset, hevent, hes⟩ := hostEvent_of_halted hhalted hreset
    obtain ⟨es', inReset', hrun⟩ := ih (s := { s with inbox := es, inReset := inReset }) hhalted hes
    refine ⟨es', inReset', ?_⟩
    rw [runSteps, step_of_halted hhalted, hevent]
    exact hrun

/-- Settles O15: the host's side is all that changes without reset, and reset clears STATUS. -/
theorem haltedBlockRunsNothingUntilReset : Obligations.HaltedBlockRunsNothingUntilReset := by
  refine ⟨fun n s hhalted hreset => ?_, fun s es hhalted hin => ?_⟩
  · obtain ⟨es, inReset, hrun⟩ := runSteps_of_halted n hhalted hreset
    rw [hrun]
    exact ⟨rfl, rfl, rfl, rfl, hhalted⟩
  · refine ⟨_, step_of_halted hhalted, ?_⟩
    rw [hostEvent_assertReset hin]
    exact ⟨rfl, (by decide : faultBit 0 = false)⟩

/-! ## What frames alone can raise -/

/-- The causes INDEX_RANGE, ABSORB_LENGTH and INTERNAL_ASSERT (R310, R315). -/
def Cause.internal : Cause → Bool
  | .indexRange | .absorbLength | .internalAssert => true
  | .illegalCommand | .digitRange | .redInput | .laneRange | .msgTooLong => false

theorem internalCause_latchFault (r : Raise) (st : BitVec 16) :
    internalCause (latchFault r st) ↔ r.cause.internal = true := by
  rw [internalCause, causeField_latchFault]
  cases r.cause <;> decide

/-- `KECCAK_F_RED` of a canonical grid completes: the grid encodes one of words, and each round keeps the
encoding. -/
theorem keccakFRed_of_canonicalGrid {a : Grid RedLane} (ha : CanonicalGrid a) :
    ∃ b, keccakFRed a = some b := by
  choose w hw using fun x y => exists_encLane_of_canonical (ha x y)
  have henc : a = (Grid.ofFn w).map (encLane 13) := Grid.ext_get fun x y => by
    rw [get_map_encLane, Grid.get_ofFn, hw]
  exact ⟨_, henc ▸ keccakFRed_map_encLane _⟩

theorem FrameState.raise (s : State) {r : Raise} (hr : r.cause.internal = false) :
    FrameState (s.raise r) :=
  ⟨rfl, by rw [State.raise_status, internalCause_latchFault, hr]; decide⟩

/-- The result is a next state between commands, with no internal cause recorded. -/
def LeavesFrameState (res : Result) : Prop := ∃ t, res = .next t ∧ FrameState t

/-- Fault entry with a cause that is not internal. -/
theorem LeavesFrameState.raise {s : State} {r : Raise} {res : Result} (h : res = .next (s.raise r))
    (hr : r.cause.internal = false) : LeavesFrameState res := ⟨_, h, FrameState.raise s hr⟩

section
variable {s : State} (hs : FrameState s)
include hs

/-- A response keeps the sequencer and STATUS, whatever becomes of the datapath and of `S`. -/
theorem FrameState.responds {res : Result} {w : Work} {S : Grid Lane} {bs : List Byte}
    (h : res = .next (({ s with work := w, S := S } : State).respond bs)) : LeavesFrameState res :=
  ⟨_, h, hs.idle, hs.cause⟩

/-- A check whose cause is not internal, then a response. -/
theorem FrameState.check {p : Bool} {c : Cause} {info : Byte} {bs : List Byte} (hc : c.internal = false) :
    LeavesFrameState (s.conclude (require p c info >>= fun _ => .ok (s.respond bs))) := by
  cases p with
  | true => exact hs.responds rfl
  | false => exact .raise rfl hc

theorem FrameState.ingest (len : BitVec 64) (msg : List Byte) :
    LeavesFrameState (exec (.ingest len msg) s) := by
  by_cases h : len ≤ Config.maxMessageBytes
  · obtain ⟨w, hexec, -⟩ := ingestWith_ok h msg s
    exact hs.responds hexec
  · exact .raise (ingestWith_over (by simpa using h) msg s) rfl

/-- PERMUTE_RED: a canonical operand, the only one that reaches a round, violates no internal
precondition. -/
theorem FrameState.permuteRed (g : Grid RedOperand) : LeavesFrameState (exec (.permuteRed g) s) := by
  rcases execPermuteRed_cases g s with ⟨k, -, -, h⟩ | ⟨hcanonical, hnone, -⟩ | ⟨w, q, -, -, -, h⟩
  · exact .raise h rfl
  · obtain ⟨b, hb⟩ := keccakFRed_of_canonicalGrid hcanonical
    cases hnone.symm.trans hb
  · exact hs.responds h

/-- Every host command, that is every instruction that is encoded as a frame (30_encoding.md R100). -/
theorem FrameState.exec {i : Instr} {bytes : List Byte} (h : encode i = .frame bytes) :
    LeavesFrameState (exec i s) := by
  cases i with
  | new | permuteBin _ | enc13 _ | enc9 _ => exact hs.responds rfl
  | finalize => exact hs.responds (exec_finalize s)
  | ingest len msg => exact hs.ingest len msg
  | permuteRed g => exact hs.permuteRed g
  | dec13d _ | dec9d _ | dec13l _ | dec9l _ => exact hs.check rfl
  | _ => cases h

/-- A host event is power-on reset, or keeps the sequencer and STATUS. -/
theorem FrameState.hostEvent : FrameState s.hostEvent := by
  rcases hostEvent_cases s with ⟨-, e⟩ | ⟨b, es, -, -, e⟩ | ⟨b, es, -, -, e⟩ | ⟨es, -, e⟩ | ⟨es, -, e⟩ |
    ⟨es, -, e⟩ <;> rw [e]
  case inr.inr.inr.inl => exact ⟨rfl, frameState_reset.cause⟩
  all_goals exact ⟨hs.idle, hs.cause⟩

end

/-- Settles O14: with no word in the sequencer, a step is a host event, the fault of an unassigned opcode,
or the command of a frame. -/
theorem framesNeverRaiseInternalCauses : Obligations.FramesNeverRaiseInternalCauses := by
  intro s t hs ht
  rcases step_cases s with ⟨-, h⟩ | ⟨-, ⟨w, ws, i, hseq, -, -⟩ | ⟨w, ws, why, hseq, -, -⟩ |
    ⟨i, operand, rest, -, hd, h⟩ | ⟨op, -, -, h⟩ | ⟨-, -, h⟩⟩
  · cases h.symm.trans ht; exact hs.hostEvent
  · cases hs.idle.symm.trans hseq
  · cases hs.idle.symm.trans hseq
  · obtain ⟨-, op, -, hframe⟩ := encode_of_decodeFrame hd
    have hs' : FrameState (s.takeFrame operand rest) := ⟨hs.idle, hs.cause⟩
    obtain ⟨u, hu, hgood⟩ := hs'.exec hframe
    cases hu.symm.trans (h.symm.trans ht)
    exact hgood
  · cases h.symm.trans ht; exact FrameState.raise s rfl
  · cases h.symm.trans ht; exact hs.hostEvent

end Sys2Proof.Machine

/-! # 70_reset_and_hazards.md: power-on reset

Reset outranks whatever the block could do, and while it is asserted only the host acts; so a step with
reset coming or asserted is the host's event. -/

namespace Sys2Proof.Machine

/-! ## The state that reset leaves -/

@[simp] theorem State.powerOnReset_halted (s : State) : s.powerOnReset.halted = false := by
  have hclear : faultBit 0 = false := by decide
  exact hclear

/-! ## The steps of reset -/

/-- Reset is taken from any state: in the middle of a frame, with words pending, halted, or in reset. -/
theorem step_of_assertReset {s : State} {es : List HostEvent} (hin : s.inbox = .assertReset :: es) :
    step s = .next ({ s with inbox := es } : State).powerOnReset := by
  have hpending : s.resetPending = true := by simp [State.resetPending, hin]
  rw [step_of_stopped (by simp [hpending]), hostEvent_assertReset hin]

theorem step_of_inReset {s : State} (h : s.inReset = true) : step s = .next s.hostEvent :=
  step_of_stopped (by simp [h])

theorem hostEvent_releaseReset {s : State} {es : List HostEvent} (hin : s.inbox = .releaseReset :: es) :
    s.hostEvent = { s with inbox := es, inReset := false } := by
  simp only [State.hostEvent, hin]

/-- Settles O10: the registers of the state after reset, and reset as the step from any state. -/
theorem powerOnResetAtAnyTime : Obligations.PowerOnResetAtAnyTime :=
  ⟨Grid.get_fill 0, rfl, rfl, rfl, rfl, State.powerOnReset_halted State.reset, fun _ _ hin =>
    ⟨_, step_of_assertReset hin, Grid.get_fill 0, rfl, rfl, rfl, rfl, State.powerOnReset_halted _, rfl, rfl⟩⟩

/-- Settles O11: in reset a step is the host's event, and neither a byte nor the release does more. -/
theorem bytesDuringResetAreDiscarded : Obligations.BytesDuringResetAreDiscarded := by
  refine fun s es hreset => ⟨fun b hin => ?_, fun hin => ?_⟩
  · rw [step_of_inReset hreset, hostEvent_byte_discarded hin (by simp [hreset])]
  · rw [step_of_inReset hreset, hostEvent_releaseReset hin]

end Sys2Proof.Machine
